-- ==== Sys2Proof/Word.lean ====
section
/-! DEFINITION. The machine word (R6, R10), text, the addressing-mode tags (R50) and the names a decoder
rejects a word by (R93).

A word is a mathematical integer here, because the spec computes on integers (R10) and splits an instruction
word into DECIMAL digits (R11, R47).  Its width W is a parameter (R6), so "is a word" is the predicate
`Word.InRange W` on `Int`, kept by the machine's invariant (Safety.lean). -/

namespace Sys2Proof

/-- Text of the two channels (R82 to R88), one character at a time. -/
abbrev Text := List Char

/-- `2^(W-1)`, the magnitude of the most negative word (R6). -/
def Word.half (W : Nat) : Int := ((2 ^ (W - 1) : Nat) : Int)

/-- R6: the range of a W-bit two's-complement signed integer. -/
abbrev Word.InRange (W : Nat) (v : Int) : Prop := -Word.half W ≤ v ∧ v ≤ Word.half W - 1

/-- R50: the two addressing modes.  A mode digit 2 to 9 has no constructor: the decoder rejects it. -/
inductive Mode where
  | position
  | immediate
deriving DecidableEq, Repr

/-- R93 codes 1 and 2: why a word does not decode, with the info the spec records (less the address, which the
step adds).  Raised by the decoder only. -/
inductive DecodeError where
  /-- R94: the opcode `trem(w, 100)` is none of 1, 2, 3, 4, 99. -/
  | unknownOpcode (word opcode : Int)
  /-- R95: the opcode is known, and the mode digit of operand `operand` (1, 2 or 3) is neither 0 nor 1. -/
  | unknownMode (word : Int) (operand : Nat) (digit : Int)
deriving DecidableEq, Repr

end Sys2Proof
end

