-- ==== Sys2Proof/Config.lean ====
section
/-! DEFINITION. The implementation parameters of 00_scope.md section 3 (R6, R8, R9).

The spec leaves them open ("a model takes it as an argument"), so they are DATA of a machine: State carries a
`Params`, fixed for its whole run, and every statement about a state holds for every value of them.  MEM_WORDS
(R7) is no field: it is the length of the memory (R17). -/

namespace Sys2Proof

/-- R8: what ADD and MUL do when the exact result lies outside the word range. -/
inductive OverflowMode where
  | fault
  | wrap
deriving DecidableEq, Repr

/-- R9: what a destination operand in immediate mode does. -/
inductive ImmDstPolicy where
  | permit
  | fault
deriving DecidableEq, Repr

/-- R6, R8, R9: WORD_BITS, OVERFLOW_MODE and IMM_DST_POLICY. -/
structure Params where
  /-- W: R6 -/
  wordBits : Nat
  /-- OVERFLOW_MODE: R8 -/
  overflow : OverflowMode
  /-- IMM_DST_POLICY: R9 -/
  immDst : ImmDstPolicy
deriving DecidableEq, Repr

/-- The word width of the machine the model resets to.  DESIGN CHOICE (assumption 1): R6 gives W no default; 32 is a
width the spec's test vectors are stated for. -/
def Config.resetWordBits : Nat := 32

/-- The parameters of the machine the model resets to: the spec's defaults `fault` (R8) and `permit` (R9), and the
chosen W (assumption 1). -/
def Params.default : Params where
  wordBits := Config.resetWordBits
  overflow := .fault
  immDst := .permit

end Sys2Proof
end

