-- ==== Sys2Proof/Syntax.lean ====
section
/-! DEFINITION. The instructions (R52): one constructor per row of spec/opcode_table.json.

An instruction is what R55's `decode` returns: the opcode and the three modes.  Its parameters are words of memory
that its meaning reads when it runs (R57, R59), so they are no part of it.  The decoder computes three modes for
every opcode (R51), so every constructor carries three, used or not (R62). -/

namespace Sys2Proof

/-- R52, R55: the decoded instruction word. -/
inductive Instr where
  /-- R77 -/
  | add (m1 m2 m3 : Mode)
  /-- R78 -/
  | mul (m1 m2 m3 : Mode)
  /-- R80 -/
  | inp (m1 m2 m3 : Mode)
  /-- R81 -/
  | out (m1 m2 m3 : Mode)
  /-- R89 -/
  | halt (m1 m2 m3 : Mode)
deriving DecidableEq, Repr

/-- R52: the opcode, the number in the low two decimal digits. -/
def Instr.opcode : Instr → Int
  | .add _ _ _ => 1
  | .mul _ _ _ => 2
  | .inp _ _ _ => 3
  | .out _ _ _ => 4
  | .halt _ _ _ => 99

/-- R48: the three modes, whatever the opcode. -/
def Instr.modes : Instr → Mode × Mode × Mode
  | .add m1 m2 m3 => (m1, m2, m3)
  | .mul m1 m2 m3 => (m1, m2, m3)
  | .inp m1 m2 m3 => (m1, m2, m3)
  | .out m1 m2 m3 => (m1, m2, m3)
  | .halt m1 m2 m3 => (m1, m2, m3)

/-- R57: how many parameter words follow the instruction word (F4: 3, F2: 1, F1: 0). -/
def Instr.arity : Instr → Nat
  | .add _ _ _ => 3
  | .mul _ _ _ => 3
  | .inp _ _ _ => 1
  | .out _ _ _ => 1
  | .halt _ _ _ => 0

/-- An operand as R64 writes it: `[n]` is `⟨.position, n⟩`, `#n` is `⟨.immediate, n⟩`. -/
structure Operand where
  mode : Mode
  param : Int
deriving DecidableEq, Repr

/-- R57, R64: an instruction with the parameter words that follow it in memory. -/
structure Assembled where
  instr : Instr
  params : List Int
deriving DecidableEq, Repr

end Sys2Proof
end

