-- ==== Sys2Proof/WellFormed.lean ====
section
/-! DEFINITION. What is well-formed: the parameters (R6), an image of words (R116), and an instruction with its
parameter words (R57, R58).  An `Instr` alone needs no check: its fields are modes, and `Mode` has the two values
R50 allows. -/

namespace Sys2Proof

/-- R6: "W must be at least 15". -/
def Params.wf (p : Params) : Bool := decide (15 ≤ p.wordBits)

/-- R116: every word of an image, and of a memory at any time, lies in the word range (R6). -/
def wordsInRange (W : Nat) (ws : List Int) : Bool := ws.all fun v => decide (Word.InRange W v)

/-- R57: the instruction is followed by exactly the parameters its format has. -/
def Assembled.arityOk (a : Assembled) : Bool := a.params.length == a.instr.arity

/-- R57, R58: the right number of parameters, each a whole word. -/
def Assembled.wf (W : Nat) (a : Assembled) : Bool := a.arityOk && wordsInRange W a.params

end Sys2Proof
end

