-- ==== Sys2Proof/Decode.lean ====
section
/-! DEFINITION. The instruction decoder (R47 to R56), and after it the encoder (R52, R64).

Every field of an instruction word is a DECIMAL field (R11).  `tdiv` and `trem` of R10 are core Lean's `Int.tdiv`
and `Int.tmod`, which truncate toward zero. -/

namespace Sys2Proof

/-! ### Fields (R10, R11, R48) -/

/-- R11: `digit_k(w) = trem(tdiv(w, 10^k), 10)`. -/
def digit (k : Nat) (w : Int) : Int := ((w.tdiv (10 ^ k : Nat)).tmod 10)

/-- R48: `trem(w, 100)`. -/
def opcodeOf (w : Int) : Int := w.tmod 100

/-! ### The decoder (R49 to R55) -/

/-- R50: 0 is position, 1 is immediate, and nothing else is a mode. -/
def modeOfDigit (d : Int) : Option Mode :=
  if d = 0 then some .position else if d = 1 then some .immediate else none

/-- R52, R53: the opcode map. -/
def instrOfOpcode (op : Int) : Option (Mode → Mode → Mode → Instr) :=
  if op = 1 then some .add
  else if op = 2 then some .mul
  else if op = 3 then some .inp
  else if op = 4 then some .out
  else if op = 99 then some .halt
  else none

/-- R50, R55: the mode of operand `k`, which decimal digit `k + 1` holds. -/
def decodeMode (w : Int) (k : Nat) : Except DecodeError Mode :=
  match modeOfDigit (digit (k + 1) w) with
  | some m => .ok m
  | none => .error (.unknownMode w k (digit (k + 1) w))

/-- R55, with R54's order: the opcode, then mode_1, mode_2, mode_3, for every opcode (R51). -/
def decodeWord (w : Int) : Except DecodeError Instr :=
  match instrOfOpcode (opcodeOf w) with
  | none => .error (.unknownOpcode w (opcodeOf w))
  | some mk =>
    match decodeMode w 1 with
    | .error e => .error e
    | .ok m1 =>
      match decodeMode w 2 with
      | .error e => .error e
      | .ok m2 =>
        match decodeMode w 3 with
        | .error e => .error e
        | .ok m3 => .ok (mk m1 m2 m3)

/-- R57: an instruction and its parameter words, read from the front of a list of words; the rest is left over.  `none`
where the first word does not decode or the parameters are not all there. -/
def decodeWords : List Int → Option (Assembled × List Int)
  | [] => none
  | w :: ws =>
    match decodeWord w with
    | .error _ => none
    | .ok i =>
      if i.arity ≤ ws.length then some (⟨i, ws.take i.arity⟩, ws.drop i.arity) else none

/-! ### The encoder (R52, R64) -/

/-- R50 -/
def Mode.digit : Mode → Int
  | .position => 0
  | .immediate => 1

/-- R77, R78, R80, R81, R89: `opcode + 100*m1 + 1000*m2 + 10000*m3`. -/
def encodeWord (i : Instr) : Int :=
  i.opcode + 100 * i.modes.1.digit + 1000 * i.modes.2.1.digit + 10000 * i.modes.2.2.digit

/-- R57, R64: the instruction word, then the parameter words in operand order. -/
def encode (a : Assembled) : List Int := encodeWord a.instr :: a.params

/-! ### The assembler syntax of R64 -/

/-- `ADD a, b, d` -/
def asmAdd (a b d : Operand) : Assembled := ⟨.add a.mode b.mode d.mode, [a.param, b.param, d.param]⟩

/-- `MUL a, b, d` -/
def asmMul (a b d : Operand) : Assembled := ⟨.mul a.mode b.mode d.mode, [a.param, b.param, d.param]⟩

/-- `IN d`: the digits of absent operands are 0. -/
def asmIn (d : Operand) : Assembled := ⟨.inp d.mode .position .position, [d.param]⟩

/-- `OUT a` -/
def asmOut (a : Operand) : Assembled := ⟨.out a.mode .position .position, [a.param]⟩

/-- `HALT` -/
def asmHalt : Assembled := ⟨.halt .position .position .position, []⟩

/-! ### The opcode table's numbering of bits

The table gives this machine no bits (its fields are decimal), so "bit 0 is the least significant bit of the first
word" is read on the two's-complement form of R6: word k of an instruction is bits k*W to k*W + W - 1. -/

/-- The word that W bits of two's complement stand for (R6). -/
def Word.ofBits (W n : Nat) : Int :=
  if n % 2 ^ W < 2 ^ (W - 1) then ((n % 2 ^ W : Nat) : Int) else ((n % 2 ^ W : Nat) : Int) - ((2 ^ W : Nat) : Int)

/-- The four words (the longest instruction, R57) whose bits are `w`, the bits above `nbits` zero. -/
def tableWords (W nbits w : Nat) : List Int :=
  let bits := w % 2 ^ nbits
  [Word.ofBits W bits, Word.ofBits W (bits / 2 ^ W), Word.ofBits W (bits / 2 ^ (2 * W)),
    Word.ofBits W (bits / 2 ^ (3 * W))]

/-- The instruction the decoder reads from the words of a table row, at the word width of the machine the model resets
to (assumptions 1 and 9). -/
def decodeTableWord (nbits w : Nat) : Option Instr :=
  match decodeWords (tableWords Config.resetWordBits nbits w) with
  | some (a, _) => some a.instr
  | none => none

end Sys2Proof
end

