-- ==== Sys2Proof/Machine/State.lean ====
section
/-! DEFINITION. The state of the Day5 Machine (R16 to R30), its faults (R93) and its reset (R30, R111). -/

namespace Sys2Proof.Machine

/-- R17, R31, R35: the N words of memory, address 0 first.  A word's address is its place in the list, so an address
from 0 to N-1 has exactly one word, no other address has one, and equal memories are equal lists. -/
abbrev Memory := List Int

/-- R26: the host's answer to one input request.  In the model the answers to come are data of the state. -/
inductive InAnswer where
  /-- the line's value, a word -/
  | value (v : Int)
  /-- the line could not be parsed as a word -/
  | formatError (line : Text)
  /-- the channel failed, for example at end of stream -/
  | ioError
deriving DecidableEq, Repr

/-- R27: one event on the output port. -/
inductive OutEvent where
  | prompt
  | value (v : Int)
deriving DecidableEq, Repr

/-- R13, R27: the host's answer to one output event. -/
inductive OutAnswer where
  | ok
  | ioError
deriving DecidableEq, Repr

/-- R93: the channel an `IoError` names. -/
inductive Channel where
  | input
  | output
deriving DecidableEq, Repr

/-- R75, R76: the ALU's two operations, as an `Overflow` names them. -/
inductive AluOp where
  | add
  | mul
deriving DecidableEq, Repr

/-- R93: the reasons of the fault record, with the info each records.  An instruction that meets one TAKES it: a next
state with the record written (R92, `State.raise`).  No step of this model ends in `Host.Outcome.fault`. -/
inductive Fault where
  /-- code 1, R94.  Raised by the decode of any fetched word.  Safe: the machine stops (D3). -/
  | unknownOpcode (word opcode : Int) (ip : Nat)
  /-- code 2, R95.  Raised by the decode of any fetched word.  Safe: the machine stops (D4). -/
  | unknownMode (word : Int) (operand : Nat) (digit : Int) (ip : Nat)
  /-- code 3, R96.  Raised by the fetch and by every slot, operand or destination access.  Safe: as the spec. -/
  | bounds (index : Int) (ip : Nat)
  /-- code 4, R97.  Raised by IN.  Safe: as the spec. -/
  | inputFormat (line : Text) (ip : Nat)
  /-- code 5, R98.  Raised by IN (prompt or input) and OUT.  Safe: as the spec. -/
  | ioError (channel : Channel) (ip : Nat)
  /-- code 6, R99.  Raised by ADD and MUL under OVERFLOW_MODE = fault.  Safe: the machine stops (D2). -/
  | overflow (op : AluOp) (a b : Int) (ip : Nat)
  /-- code 7, R100.  Raised by ADD, MUL and IN under IMM_DST_POLICY = fault.  Safe: the machine stops (D7). -/
  | immediateDestination (slot ip : Nat)
deriving DecidableEq, Repr

/-- Why the model gives no meaning.  No instruction and no step of this model is refused: the last two are refusals of
CONSTRUCTION, which the spec asks for. -/
inductive Refusal where
  /-- An instruction without a meaning.  Raised by nothing: every arm of exec has its meaning.  Safe. -/
  | notModelled (mnemonic : String)
  /-- R116: the image has an element outside the word range.  Raised by `construct`.  Safe. -/
  | imageWordOutOfRange
  /-- R6: WORD_BITS below 15.  Raised by `construct`.  Safe. -/
  | wordBitsBelow15
deriving DecidableEq, Repr

/-- R21: the run status, derived from the state. -/
inductive Status where
  | running
  | halted
  | faulted
deriving DecidableEq, Repr

end Sys2Proof.Machine

namespace Sys2Proof.Machine

/-- The state: R16's four pieces first, then what the spec keeps outside the core but a step reads or a claim observes
(assumptions 2 to 5). -/
structure State where
  /-- R16, R17: `M`; N is its length (R7). -/
  mem : Memory
  /-- R16, R18: the instruction pointer, an unbounded natural. -/
  ip : Nat
  /-- R16, R19: the halted flag. -/
  halted : Bool
  /-- R16, R20: the fault record. -/
  fault : Option Fault
  /-- R6, R8, R9: the implementation parameters; no step changes them. -/
  params : Params
  /-- R29, R110: an IN step is in flight: its prompt is sent and its request made, and the answer has not come. -/
  waiting : Bool
  /-- R26: the answers the host has given to input requests not yet completed, oldest first; none left: it has not answered. -/
  inputs : List InAnswer
  /-- R28, R123: how many input requests have been made. -/
  requests : Nat
  /-- R27: how many more events the output port answers `Ok` before it answers `IoError`; `none`: it always answers `Ok`. -/
  outLeft : Option Nat
  /-- R27, R28: the output events sent, oldest first, whatever the host answered to each. -/
  events : List OutEvent
deriving DecidableEq, Repr

/-- R30, R111: the machine constructed from the empty image (R113).  The last six fields are the model's own
(assumptions 1 to 5 and 8). -/
def State.reset : State where
  mem := []
  ip := 0
  halted := false
  fault := none
  params := Params.default
  waiting := false
  inputs := []
  requests := 0
  outLeft := none
  events := []

end Sys2Proof.Machine
end

