-- ==== Sys2Proof/Machine/Ops.lean ====
section
/-! DEFINITION. The shared operations: the memory primitives (R33, R34), raising a fault (R92), the ip increment
(R68), the two ports (R13, R26, R27), the fetch (R67), construction (R111) and the start of a run (R124). -/

namespace Sys2Proof.Machine

/-! ### Memory (R31 to R41) -/

/-- The word at address `a`; none where `a` fails R32's test `0 <= a < N`. -/
def Memory.read (m : Memory) (a : Int) : Option Int :=
  if 0 ≤ a then m[a.toNat]? else none

/-- The word at `a` replaced by `v`; none where `a` fails R32's test. -/
def Memory.write (m : Memory) (a : Int) (v : Int) : Option Memory :=
  if 0 ≤ a ∧ a.toNat < m.length then some (m.set a.toNat v) else none

/-- The form of a memory: every element is a word (R6, R17).  Nothing else could vary: see `Memory`. -/
def Memory.wf (W : Nat) (m : Memory) : Bool := wordsInRange W m

/-- R33: `MemRead(a, 1)`. -/
def memRead (s : State) (a : Int) : Except Fault Int :=
  match Memory.read s.mem a with
  | some v => .ok v
  | none => .error (.bounds a s.ip)

/-- R34: `MemWrite(a, 1, v)`. -/
def memWrite (s : State) (a : Int) (v : Int) : Except Fault State :=
  match Memory.write s.mem a v with
  | some m => .ok { s with mem := m }
  | none => .error (.bounds a s.ip)

/-! ### Taking a fault (R14, R92)

There is no return beside it: R103, "No trap return exists, no handler runs, and nothing nests". -/

/-- R92: `raise Fault(reason, info)`: the record is written, the step ends (and with it an IN in flight), and M, ip and
halted stay as they are at that point. -/
def State.raise (f : Fault) (s : State) : State := { s with fault := some f, waiting := false }

/-- What a handler that touches no port answers: its state, or the fault taken. -/
def State.complete (s : State) : Except Fault State → Host.Outcome State Fault Refusal
  | .ok t => .next t
  | .error f => .next (s.raise f)

/-- R93: the numeric codes. -/
def Fault.code : Fault → Nat
  | .unknownOpcode _ _ _ => 1
  | .unknownMode _ _ _ _ => 2
  | .bounds _ _ => 3
  | .inputFormat _ _ => 4
  | .ioError _ _ => 5
  | .overflow _ _ _ _ => 6
  | .immediateDestination _ _ => 7

/-- R93: "In every row, `ip` is the address of the instruction that faulted." -/
def Fault.ip : Fault → Nat
  | .unknownOpcode _ _ ip => ip
  | .unknownMode _ _ _ ip => ip
  | .bounds _ ip => ip
  | .inputFormat _ ip => ip
  | .ioError _ ip => ip
  | .overflow _ _ _ ip => ip
  | .immediateDestination _ ip => ip

/-- R98: the fault is an `IoError` of the output channel. -/
def Fault.ofOutput : Fault → Bool
  | .ioError .output _ => true
  | .ioError .input _ => false
  | .unknownOpcode _ _ _ => false
  | .unknownMode _ _ _ _ => false
  | .bounds _ _ => false
  | .inputFormat _ _ => false
  | .overflow _ _ _ _ => false
  | .immediateDestination _ _ => false

/-! ### The instruction pointer (R68, R72, R74) -/

/-- R68: `ip <- ip + n`, on the natural numbers, not checked against N. -/
def State.advance (n : Nat) (s : State) : State := { s with ip := s.ip + n }

/-- R74: parameter slot k of the instruction at ip. -/
def State.slot (s : State) (k : Nat) : Nat := s.ip + k

/-! ### The ports (R13, R26, R27) -/

/-- R27: the host's answer to the next output event, a draw from the environment. -/
def State.outAnswer (s : State) : OutAnswer :=
  match s.outLeft with
  | some 0 => .ioError
  | _ => .ok

/-- R27: the event is sent. -/
def State.sent (s : State) (e : OutEvent) : State :=
  { s with events := s.events ++ [e], outLeft := s.outLeft.map (· - 1) }

/-- R13, R27: `OutPort(e)`: one event is sent, and the host answers. -/
def outPort (s : State) (e : OutEvent) : OutAnswer × State := (s.outAnswer, s.sent e)

/-- R26, R29: `InPort()` makes its request, and the step waits. -/
def State.request (s : State) : State := { s with waiting := true, requests := s.requests + 1 }

/-- R26: the oldest answer is taken and the wait ends. -/
def State.takeInput (rest : List InAnswer) (s : State) : State := { s with waiting := false, inputs := rest }

/-- R26, R120: the host answers an input request, at any time. -/
def State.hostAnswers (answers : List InAnswer) (s : State) : State := { s with inputs := s.inputs ++ answers }

/-- R27: the output port answers `Ok` to `left` more events and `IoError` to the next; for `none`, `Ok` to all. -/
def State.outputTakes (left : Option Nat) (s : State) : State := { s with outLeft := left }

/-! ### Fetch and decode (R55, R67) -/

/-- R55: a decode error is a fault that also records the address. -/
def DecodeError.toFault (ip : Nat) : DecodeError → Fault
  | .unknownOpcode w op => .unknownOpcode w op ip
  | .unknownMode w k d => .unknownMode w k d ip

/-- R55: `decode(w)` inside a step. -/
def decodeAt (s : State) (w : Int) : Except Fault Instr :=
  match decodeWord w with
  | .ok i => .ok i
  | .error e => .error (DecodeError.toFault s.ip e)

/-- R67: the first two lines of `step()`: the fetch, then the decode. -/
def fetch (s : State) : Except Fault Instr :=
  match memRead s s.ip with
  | .ok w => decodeAt s w
  | .error f => .error f

/-- R66: in a halted or faulted state no step is enabled and "the state never changes again" (assumption 7). -/
def noStepEnabled (s : State) : Host.Outcome State Fault Refusal := .next s

/-! ### Construction (R25, R111, R116) -/

/-- R111: the state `construct(image)` sets, for parameters and an image that `construct` accepts. -/
def State.constructed (p : Params) (image : List Int) : State :=
  { State.reset with params := p, mem := image }

/-- R6, R111, R116: construction, refused for a width below 15 or an image word outside the range. -/
def construct (p : Params) (image : List Int) : Host.Outcome State Fault Refusal :=
  if p.wf = false then .refused .wordBitsBelow15
  else if wordsInRange p.wordBits image = false then .refused .imageWordOutOfRange
  else .next (State.constructed p image)

/-- R124: the state a run starts from, for its free premises: the parameters, the image and the host's answers on the two
ports. -/
def State.launched (p : Params) (image : List Int) (answers : List InAnswer) (left : Option Nat) : State :=
  ((State.constructed p image).hostAnswers answers).outputTakes left

/-- R124: "Every run starts from the state `construct(image)`", whatever the host will answer. -/
def startRun (p : Params) (image : List Int) (answers : List InAnswer) (left : Option Nat) :
    Host.Outcome State Fault Refusal :=
  match construct p image with
  | .next s => .next ((s.hostAnswers answers).outputTakes left)
  | .fault f => .fault f
  | .refused r => .refused r

/-- The words `ws` laid over memory from address `a` on, the memory made longer by words 0 where it ends before them. -/
def placeWords (m : Memory) (a : Nat) (ws : List Int) : Memory :=
  (m ++ List.replicate (a - m.length) 0).take a ++ ws ++ m.drop (a + ws.length)

end Sys2Proof.Machine
end

