-- ==== Sys2Proof/Machine/Flags.lean ====
section
/-! DEFINITION. The one status flag (R19) and the run status derived from it and the fault record (R21).  The machine
has no condition codes, carry, overflow or zero flags (R23). -/

namespace Sys2Proof.Machine

/-- R89: `halted <- true`. -/
def State.setHalted (s : State) : State := { s with halted := true }

/-- R21, derived, not stored.  A faulted state counts as faulted whatever its halted flag; both never hold together in a
state that meets the invariant. -/
def State.status (s : State) : Status :=
  match s.fault with
  | some _ => .faulted
  | none => if s.halted then .halted else .running

/-- R66: a step is enabled. -/
abbrev State.Running (s : State) : Prop := s.halted = false ∧ s.fault = none

/-- R29, R110, R121: the machine is in the input wait and the host has not answered. -/
abbrev State.Stuck (s : State) : Prop := s.Running ∧ s.waiting = true ∧ s.inputs = []

end Sys2Proof.Machine
end

