-- ==== Sys2Proof/Machine/Operands.lean ====
section
/-! DEFINITION. The addressing-mode resolver (R59 to R61): the only two operand forms of the machine. -/

namespace Sys2Proof.Machine

/-- R59: `resolve(s, m)`: the effective address of parameter slot `slot`. -/
def resolve (s : State) (slot : Nat) : Mode → Except Fault Int
  | .immediate => .ok slot
  | .position => memRead s slot

/-- R59: `read_operand(s, m)`. -/
def readOperand (s : State) (slot : Nat) (m : Mode) : Except Fault Int :=
  match resolve s slot m with
  | .ok a => memRead s a
  | .error f => .error f

/-- R60: `resolve_dst(s, m)`. -/
def resolveDst (s : State) (slot : Nat) (m : Mode) : Except Fault Int :=
  match m, s.params.immDst with
  | .immediate, .fault => .error (.immediateDestination slot s.ip)
  | _, _ => resolve s slot m

end Sys2Proof.Machine
end

