-- ==== Sys2Proof/Machine/Alu.lean ====
section
/-! DEFINITION. The integer ALU (R75, R76): exact addition and multiplication, brought back to a word. -/

namespace Sys2Proof.Machine

/-- R10: `wrap_W(x) = ((x + 2^(W-1)) mod 2^W) - 2^(W-1)`, with the non-negative remainder. -/
def wrapWord (W : Nat) (x : Int) : Int := (x + Word.half W) % ((2 ^ W : Nat) : Int) - Word.half W

/-- The exact result of an ALU operation: an integer (R10). -/
def AluOp.exact : AluOp → Int → Int → Int
  | .add, a, b => a + b
  | .mul, a, b => a * b

/-- R75, R76: the exact result where it is a word; else OVERFLOW_MODE decides. -/
def narrow (op : AluOp) (s : State) (a b : Int) : Except Fault Int :=
  if Word.InRange s.params.wordBits (op.exact a b) then .ok (op.exact a b)
  else
    match s.params.overflow with
    | .fault => .error (.overflow op a b s.ip)
    | .wrap => .ok (wrapWord s.params.wordBits (op.exact a b))

/-- R75 -/
def aluAdd (s : State) (a b : Int) : Except Fault Int := narrow .add s a b

/-- R76 -/
def aluMul (s : State) (a b : Int) : Except Fault Int := narrow .mul s a b

end Sys2Proof.Machine
end

