-- ==== Sys2Proof/Machine/Arith.lean ====
section
/-! DEFINITION. The arithmetic family: ADD (R77) and MUL (R78). -/

namespace Sys2Proof.Machine

/-- The six lines R77 and R78 share, in memory-access order: both source values, the destination, the ALU, the one
write (R41), the increment.  A fault on any line leaves the state to `State.complete`. -/
def binaryOp (alu : State → Int → Int → Except Fault Int) (m1 m2 m3 : Mode) (s : State) : Except Fault State :=
  match readOperand s (s.slot 1) m1 with
  | .error f => .error f
  | .ok a =>
    match readOperand s (s.slot 2) m2 with
    | .error f => .error f
    | .ok b =>
      match resolveDst s (s.slot 3) m3 with
      | .error f => .error f
      | .ok d =>
        match alu s a b with
        | .error f => .error f
        | .ok r =>
          match memWrite s d r with
          | .error f => .error f
          | .ok t => .ok (t.advance 4)

/-- R77: `exec_ADD(m1, m2, m3)`. -/
def execAdd (m1 m2 m3 : Mode) (s : State) : Host.Outcome State Fault Refusal :=
  s.complete (binaryOp aluAdd m1 m2 m3 s)

/-- R78: `exec_MUL(m1, m2, m3)`. -/
def execMul (m1 m2 m3 : Mode) (s : State) : Host.Outcome State Fault Refusal :=
  s.complete (binaryOp aluMul m1 m2 m3 s)

end Sys2Proof.Machine
end

