-- ==== Sys2Proof/Machine/Halt.lean ====
section
/-! DEFINITION. The halt family: HALT (R89). -/

namespace Sys2Proof.Machine

/-- R89: `halted <- true`; ip, memory and ports untouched. -/
def execHalt (s : State) : Host.Outcome State Fault Refusal := .next s.setHalted

end Sys2Proof.Machine
end

