-- ==== Sys2Proof/Machine/Io.lean ====
section
/-! DEFINITION. The input/output family: IN (R80) and OUT (R81). -/

namespace Sys2Proof.Machine

/-- R80, the prompt and the request: sent and made once, when the step begins; an IN already waiting for its answer has
done both (R29, assumption 3). -/
def promptAndRequest (s : State) : OutAnswer × State :=
  if s.waiting then (.ok, s)
  else
    match outPort s .prompt with
    | (.ok, t) => (.ok, t.request)
    | (.ioError, t) => (.ioError, t)

/-- R80: `Value(v) : MemWrite(d, 1, v)`, then the increment. -/
def storeInput (d : Int) (v : Int) (s : State) : State :=
  match memWrite s d v with
  | .ok t => t.advance 2
  | .error f => s.raise f

/-- R80: `case resp of`. -/
def acceptAnswer (d : Int) (s : State) : InAnswer → State
  | .value v => storeInput d v s
  | .formatError line => s.raise (.inputFormat line s.ip)
  | .ioError => s.raise (.ioError .input s.ip)

/-- R29, R80: the answer, if the host has given it; without one the machine stays in the wait. -/
def receive (d : Int) (s : State) : State :=
  match s.inputs with
  | [] => s
  | answer :: rest => acceptAnswer d (s.takeInput rest) answer

/-- R80: `exec_IN(m1)`. -/
def execIn (m1 : Mode) (s : State) : Host.Outcome State Fault Refusal :=
  match resolveDst s (s.slot 1) m1 with
  | .error f => .next (s.raise f)
  | .ok d =>
    match promptAndRequest s with
    | (.ioError, t) => .next (t.raise (.ioError .output t.ip))
    | (.ok, t) => .next (receive d t)

/-- R81: `exec_OUT(m1)`. -/
def execOut (m1 : Mode) (s : State) : Host.Outcome State Fault Refusal :=
  match readOperand s (s.slot 1) m1 with
  | .error f => .next (s.raise f)
  | .ok v =>
    match outPort s (.value v) with
    | (.ioError, t) => .next (t.raise (.ioError .output t.ip))
    | (.ok, t) => .next (t.advance 2)

end Sys2Proof.Machine
end

