-- ==== Sys2Proof/Machine/Dispatch.lean ====
section
/-! DEFINITION. The dispatch of R67: one arm per instruction. -/

namespace Sys2Proof.Machine

def exec (i : Instr) (s : State) : Host.Outcome State Fault Refusal :=
  match i with
  | .add m1 m2 m3 => Sys2Proof.Machine.execAdd m1 m2 m3 s
  | .mul m1 m2 m3 => Sys2Proof.Machine.execMul m1 m2 m3 s
  -- R62, R67: IN and OUT take mode_1 alone, HALT no mode
  | .inp m1 _ _ => Sys2Proof.Machine.execIn m1 s
  | .out m1 _ _ => Sys2Proof.Machine.execOut m1 s
  | .halt _ _ _ => Sys2Proof.Machine.execHalt s

end Sys2Proof.Machine
end

