-- ==== Sys2Proof/Machine/Step.lean ====
section
/-! DEFINITION. One step (R66, R67), and the placing of an instruction where the next step fetches. -/

namespace Sys2Proof.Machine

/-- R66, R67: from a running state fetch, decode and dispatch; in a halted or faulted state no step is enabled. -/
def step (s : State) : Host.Outcome State Fault Refusal :=
  match s.status with
  | .running =>
    match fetch s with
    | .ok i => exec i s
    | .error f => .next (s.raise f)
  | .halted => noStepEnabled s
  | .faulted => noStepEnabled s

/-- The instruction whose bits are `w` (see `tableWords`) placed at ip, in a machine that runs.  This stands for the load
of R25 and R111: nothing but the words at ip, and what keeps a step from being enabled, changes (assumption 9). -/
def State.withFetchWord (s : State) (nbits w : Nat) : State :=
  { s with
    mem := placeWords s.mem s.ip (tableWords s.params.wordBits nbits w)
    halted := false
    fault := none
    waiting := false }

end Sys2Proof.Machine
end

