-- ==== Sys2Proof/Machine/Channel.lean ====
section
/-! DEFINITION. What the host side of the two channels does with the port's events (R82 to R88): it reads lines into
answers and writes events as text.  No step of the core depends on it (R28). -/

namespace Sys2Proof.Machine

/-! ### Decimal text (R86) -/

/-- The character of a decimal digit below 10. -/
def digitChar (d : Nat) : Char := Char.ofNat (48 + d)

/-- The value of a decimal digit character `0` to `9`. -/
def digitValue (c : Char) : Option Nat :=
  if 48 ≤ c.toNat ∧ c.toNat ≤ 57 then some (c.toNat - 48) else none

/-- The decimal digits of `n`, the most significant first, for a fuel of more than their number. -/
def natDigits : Nat → Nat → Text
  | 0, _ => []
  | fuel + 1, n => if n < 10 then [digitChar n] else natDigits fuel (n / 10) ++ [digitChar (n % 10)]

/-- R86: a `-` for a negative value and no sign otherwise, no leading zeros, `0` for zero. -/
def decimal (v : Int) : Text :=
  if v < 0 then '-' :: natDigits (v.natAbs + 1) v.natAbs else natDigits (v.natAbs + 1) v.natAbs

/-! ### The output channel (R84, R85, R87) -/

/-- R84, R85: the text of one event. -/
def renderEvent : OutEvent → Text
  | .prompt => ['?', '>', ' ']
  | .value v => '#' :: '>' :: ' ' :: decimal v ++ ['\n']

/-- R87: the events in the order sent, each at once, whatever the port answered to each (assumption 6). -/
def renderEvents (es : List OutEvent) : Text := es.flatMap renderEvent

/-! ### The input channel (R82, R83) -/

/-- The characters trimmed around a line: the six ASCII white-space characters (assumption 10). -/
def isTrimmed (c : Char) : Bool := c.toNat == 32 || (9 ≤ c.toNat && c.toNat ≤ 13)

/-- R82, R83: "the surrounding whitespace is trimmed". -/
def trim (line : Text) : Text := ((line.dropWhile isTrimmed).reverse.dropWhile isTrimmed).reverse

/-- Digits read on from the value `acc` of those before them. -/
def readDigits : Nat → Text → Option Nat
  | acc, [] => some acc
  | acc, c :: cs =>
    match digitValue c with
    | some d => readDigits (acc * 10 + d) cs
    | none => none

/-- R83: "one or more decimal digits", leading zeros allowed. -/
def readNat : Text → Option Nat
  | [] => none
  | c :: cs => readDigits 0 (c :: cs)

/-- R83: "an optional single `+` or `-`", then the digits. -/
def readInt (t : Text) : Option Int :=
  match t with
  | '+' :: ds => (readNat ds).map fun n : Nat => (n : Int)
  | '-' :: ds => (readNat ds).map fun n : Nat => -(n : Int)
  | ds => (readNat ds).map fun n : Nat => (n : Int)

/-- R83: the answer the host gives for one line. -/
def answerLine (W : Nat) (line : Text) : InAnswer :=
  match readInt (trim line) with
  | some v => if Word.InRange W v then .value v else .formatError line
  | none => .formatError line

/-- R82, R83: the answers of a stream that holds these lines and then ends: one line a request, then `IoError`. -/
def streamAnswers (W : Nat) (lines : List Text) : List InAnswer := lines.map (answerLine W) ++ [.ioError]

end Sys2Proof.Machine
end

