-- ==== Sys2Proof/Machine/Run.lean ====
section
/-! DEFINITION. The run loop (R71), with the bound R73 gives it. -/

namespace Sys2Proof.Machine

/-- R71: at most `n` turns of `while halted = false and fault = none: step()`. -/
def runFor : Nat → State → State
  | 0, s => s
  | n + 1, s =>
    match s.status with
    | .halted => s
    | .faulted => s
    | .running =>
      match step s with
      | .next t => runFor n t
      | .fault _ => s
      | .refused _ => s

/-- R73: `ceil(N/2) + 1`, "a model needs no fuel argument beyond this bound". -/
def State.runBound (s : State) : Nat := (s.mem.length + 1) / 2 + 1

/-- R71: `run()`. -/
def run (s : State) : State := runFor s.runBound s

end Sys2Proof.Machine
end

