-- ==== Sys2Proof/Safety.lean ====
section
/-! DEFINITION. What a claim about a run rests on: the invariant, the observation of a normal end (R28, R123), the named
premise HOST_ANSWERS_INPUT (R121), and the spec's operand rules as relations on memory (R59, R60), which the statements
use instead of the resolver's code. -/

namespace Sys2Proof.Machine

/-! ### The invariant -/

/-- R26: a `Value(v)` answer carries a word. -/
abbrev InAnswer.IsWord (W : Nat) : InAnswer → Prop
  | .value v => Word.InRange W v
  | .formatError _ => True
  | .ioError => True

/-- R27: a `Value(v)` event carries a word. -/
abbrev OutEvent.IsWord (W : Nat) : OutEvent → Prop
  | .prompt => True
  | .value v => Word.InRange W v

/-- R80, R98: the machine's fault is `IoError` on the prompt of the IN it stands at. -/
def State.PromptFailed (s : State) : Prop :=
  (∃ f, s.fault = some f ∧ f.ofOutput = true) ∧ ∃ m1 m2 m3, fetch s = .ok (.inp m1 m2 m3)

/-- What every reachable state meets. -/
structure State.Inv (s : State) : Prop where
  /-- R6 -/
  params_wf : s.params.wf = true
  /-- R6, R17: memory holds words -/
  mem_wf : Memory.wf s.params.wordBits s.mem = true
  /-- R26: so do the host's answers -/
  inputs_words : ∀ a ∈ s.inputs, a.IsWord s.params.wordBits
  /-- R27: and the events -/
  events_words : ∀ e ∈ s.events, e.IsWord s.params.wordBits
  /-- R21: "`halted = true` and `fault != none` never hold together" -/
  not_both : s.halted = true → s.fault = none
  /-- R102: "The faulting instruction's address is in `ip` and in the fault info" -/
  fault_ip : ∀ f, s.fault = some f → f.ip = s.ip
  /-- R89: "`ip` keeps the address of the HALT word" -/
  halted_at_halt : s.halted = true → ∃ m1 m2 m3, fetch s = .ok (.halt m1 m2 m3)
  /-- R29: only a running machine waits, and only in an IN whose destination is resolved -/
  waiting_in : s.waiting = true → s.Running ∧ ∃ m1 m2 m3 d,
    fetch s = .ok (.inp m1 m2 m3) ∧ resolveDst s (s.slot 1) m1 = .ok d
  /-- R80: a request is made only after its prompt is sent, and every prompt sent is followed by its request, but for one
  the output port failed, which ends the run (R98) -/
  prompts_requests : (¬s.PromptFailed → s.events.count .prompt = s.requests) ∧
    (s.PromptFailed → s.events.count .prompt = s.requests + 1)

/-! ### Operands as relations on memory -/

/-- R59: parameter slot `slot` under the mode reads as `v`: `M[slot]` or `M[M[slot]]`. -/
def Reads (s : State) (slot : Nat) : Mode → Int → Prop
  | .immediate, v => s.mem[slot]? = some v
  | .position, v => ∃ p : Nat, s.mem[slot]? = some (p : Int) ∧ s.mem[p]? = some v

/-- R59: reading the operand raises `Bounds` at index `i`: the slot read's, or the operand read's. -/
def ReadsOutside (s : State) (slot : Nat) : Mode → Int → Prop
  | .immediate, i => i = slot ∧ s.mem.length ≤ slot
  | .position, i => (i = slot ∧ s.mem.length ≤ slot) ∨
      (s.mem[slot]? = some i ∧ ¬(0 ≤ i ∧ i < s.mem.length))

/-- R60: the destination operand resolves to address `d`. -/
def Targets (s : State) (slot : Nat) : Mode → Int → Prop
  | .immediate, d => s.params.immDst = .permit ∧ d = slot
  | .position, d => s.mem[slot]? = some d

/-- R60: resolving the destination raises fault `f`. -/
def TargetFault (s : State) (slot : Nat) : Mode → Fault → Prop
  | .immediate, f => s.params.immDst = .fault ∧ f = .immediateDestination slot s.ip
  | .position, f => s.mem.length ≤ slot ∧ f = .bounds slot s.ip

/-! ### Instructions, as the statements name them -/

/-- The instruction of an ALU operation: ADD (R77) or MUL (R78). -/
def AluOp.instr : AluOp → Mode → Mode → Mode → Instr
  | .add => .add
  | .mul => .mul

/-- R52, R68: the "ip advance" column of the opcode map. -/
def ipAdvance : Instr → Nat
  | .add _ _ _ => 4
  | .mul _ _ _ => 4
  | .inp _ _ _ => 2
  | .out _ _ _ => 2
  | .halt _ _ _ => 0

/-- R63: the 40 legal words below 100000, as the rule lists them, 8 per opcode. -/
def legalWords : List Int :=
  [1, 101, 1001, 1101, 10001, 10101, 11001, 11101] ++
  [2, 102, 1002, 1102, 10002, 10102, 11002, 11102] ++
  [3, 103, 1003, 1103, 10003, 10103, 11003, 11103] ++
  [4, 104, 1004, 1104, 10004, 10104, 11004, 11104] ++
  [99, 199, 1099, 1199, 10099, 10199, 11099, 11199]

/-- R41: the address the instruction stores to, as its meaning resolves it: ADD and MUL's operand 3, IN's operand 1; OUT and
HALT store nothing, and nor does an instruction whose destination faults. -/
def storeAddress (s : State) : Instr → Option Int
  | .add _ _ m3 => (resolveDst s (s.slot 3) m3).toOption
  | .mul _ _ m3 => (resolveDst s (s.slot 3) m3).toOption
  | .inp m1 _ _ => (resolveDst s (s.slot 1) m1).toOption
  | .out _ _ _ => none
  | .halt _ _ _ => none

/-- R27: the output port answers its next event `Ok`. -/
abbrev State.OutputOk (s : State) : Prop := s.outLeft ≠ some 0

/-! ### Runs -/

/-- R28, R123: what a claim observes of a run. -/
structure Observation where
  mem : Memory
  ip : Nat
  halted : Bool
  fault : Option Fault
  events : List OutEvent
  requests : Nat
deriving DecidableEq, Repr

/-- R28: the observation of a state. -/
def State.observe (s : State) : Observation := ⟨s.mem, s.ip, s.halted, s.fault, s.events, s.requests⟩

/-- R123: "A run ends normally exactly when a step sets `halted = true`"; "A faulted state is never a normal end". -/
def State.NormalEnd (s : State) : Prop := s.status = .halted

/-- R121: HOST_ANSWERS_INPUT, of the run from `s`: no state it passes through is stuck in the input wait. -/
def HostAnswersInput (s : State) : Prop := ∀ n, ¬(runFor n s).Stuck

/-- A run that is safe: it never takes a fault. -/
def RunsSafely (s : State) : Prop := ∀ n, (runFor n s).fault = none

end Sys2Proof.Machine
end

