-- ==== Sys2Proof/Certificates/Slice0/Obligations.lean ====
section
/-! DEFINITION. The statements for the provers, in the order of OBLIGATIONS.json.  Each cites the rule of the spec it
formalises.  Where a statement says `waiting := false` beside a fault, it is R92's "ends the current step at once" for
an IN in flight (assumption 3). -/

open Sys2Proof Sys2Proof.Machine

/-! ### Encoding -/

/-- R57, R64: the words of a well-formed instruction, whatever words follow them, decode back to that instruction, with
its modes and every parameter, and leave the words that follow. -/
def Obligations.DecodeOfEncodedInstruction : Prop :=
  ∀ (W : Nat) (a : Assembled) (rest : List Int), a.wf W = true → decodeWords (encode a ++ rest) = some (a, rest)

/-- R63: the set of legal words: by its fields; below 100000 the 40 listed; in all, those plus a non-negative multiple of
100000; and fetching any other word faults with `UnknownOpcode` or `UnknownMode`. -/
def Obligations.LegalWordsAreExactlyTheListed : Prop :=
  (∀ w : Int, (∃ i, decodeWord w = .ok i) ↔
      0 ≤ w ∧ w.tmod 100 ∈ ([1, 2, 3, 4, 99] : List Int) ∧ w / 100 % 10 ∈ ([0, 1] : List Int) ∧
        w / 1000 % 10 ∈ ([0, 1] : List Int) ∧ w / 10000 % 10 ∈ ([0, 1] : List Int)) ∧
    (∀ w : Int, w < 100000 → ((∃ i, decodeWord w = .ok i) ↔ w ∈ legalWords)) ∧
    (∀ w : Int, (∃ i, decodeWord w = .ok i) ↔ ∃ v ∈ legalWords, ∃ n : Nat, w = v + 100000 * (n : Int)) ∧
    ∀ (s : State) (w : Int), s.Running → s.mem[s.ip]? = some w → (∀ i, decodeWord w ≠ .ok i) →
      ∃ f : Fault, (f.code = 1 ∨ f.code = 2) ∧ step s = .next { s with fault := some f, waiting := false }

/-- R49: every negative word is `UnknownOpcode`, its truncating remainder lying in [-99, 0]. -/
def Obligations.NegativeWordsAreUnknownOpcodes : Prop :=
  ∀ w : Int, w < 0 →
    (-99 ≤ w.tmod 100 ∧ w.tmod 100 ≤ 0) ∧ decodeWord w = .error (.unknownOpcode w (w.tmod 100))

/-- R53, R54: the opcode is checked first, then mode_1, mode_2, mode_3, and the first check that fails gives the error. -/
def Obligations.DecoderChecksOpcodeThenModes : Prop :=
  ∀ w : Int,
    (w.tmod 100 ∉ ([1, 2, 3, 4, 99] : List Int) → decodeWord w = .error (.unknownOpcode w (w.tmod 100))) ∧
    (w.tmod 100 ∈ ([1, 2, 3, 4, 99] : List Int) →
      (digit 2 w ∉ ([0, 1] : List Int) → decodeWord w = .error (.unknownMode w 1 (digit 2 w))) ∧
      (digit 2 w ∈ ([0, 1] : List Int) →
        (digit 3 w ∉ ([0, 1] : List Int) → decodeWord w = .error (.unknownMode w 2 (digit 3 w))) ∧
        (digit 3 w ∈ ([0, 1] : List Int) →
          (digit 4 w ∉ ([0, 1] : List Int) → decodeWord w = .error (.unknownMode w 3 (digit 4 w))) ∧
          (digit 4 w ∈ ([0, 1] : List Int) → ∃ i, decodeWord w = .ok i))))

/-- R48: the opcode is the low two decimal digits and the modes the next three, and words that differ only in the digits
from 5 up decode the same, to the same instruction or to the same error (which records the word itself). -/
def Obligations.DecodedFieldsAreDecimalDigits : Prop :=
  (∀ (w : Int) (i : Instr), decodeWord w = .ok i →
      i.opcode = w % 100 ∧ i.modes.1.digit = w / 100 % 10 ∧ i.modes.2.1.digit = w / 1000 % 10 ∧
        i.modes.2.2.digit = w / 10000 % 10) ∧
    ∀ (w : Int) (n : Nat), 0 ≤ w →
      (∀ i, decodeWord (w + 100000 * (n : Int)) = .ok i ↔ decodeWord w = .ok i) ∧
      (∀ op, decodeWord (w + 100000 * (n : Int)) = .error (.unknownOpcode (w + 100000 * (n : Int)) op) ↔
        decodeWord w = .error (.unknownOpcode w op)) ∧
      (∀ k d, decodeWord (w + 100000 * (n : Int)) = .error (.unknownMode (w + 100000 * (n : Int)) k d) ↔
        decodeWord w = .error (.unknownMode w k d))

/-- R6: an instruction word of the canonical form fits every width from 15 up, and not every one fits width 14. -/
def Obligations.FifteenBitsHoldEveryInstructionWord : Prop :=
  (∀ (i : Instr) (W : Nat), 15 ≤ W → Word.InRange W (encodeWord i)) ∧ ∃ i : Instr, ¬Word.InRange 14 (encodeWord i)

/-- R52, R63 and the decoder vectors of 95_test_vectors.md: words written out digit by digit, one family each and the
corners. -/
def Obligations.WordsWrittenOutDecode : Prop :=
  decodeWord 11101 = .ok (.add .immediate .immediate .immediate) ∧
    decodeWord 1002 = .ok (.mul .position .immediate .position) ∧
    decodeWord 10003 = .ok (.inp .position .position .immediate) ∧
    decodeWord 104 = .ok (.out .immediate .position .position) ∧
    decodeWord 199 = .ok (.halt .immediate .position .position) ∧
    decodeWord 100001 = .ok (.add .position .position .position) ∧
    decodeWord 20099 = .error (.unknownMode 20099 3 2) ∧
    decodeWord 205 = .error (.unknownOpcode 205 5)

/-! ### Memory and operands -/

/-- R33, R34: the memory primitives.  A read in bounds gives the word stored; a write in bounds replaces that word and no
other, and nothing else of the state; out of bounds each raises `Bounds` with the index. -/
def Obligations.MemoryPrimitivesReadAndWriteOneWord : Prop :=
  ∀ (s : State) (a v : Int),
    (0 ≤ a ∧ a < s.mem.length →
      (∃ u, s.mem[a.toNat]? = some u ∧ memRead s a = .ok u) ∧
      ∃ t, memWrite s a v = .ok t ∧ t = { s with mem := t.mem } ∧ memRead t a = .ok v ∧
        ∀ b, b ≠ a → memRead t b = memRead s b) ∧
    (¬(0 ≤ a ∧ a < s.mem.length) →
      memRead s a = .error (.bounds a s.ip) ∧ memWrite s a v = .error (.bounds a s.ip))

/-- R59: a source operand reads as `M[s]` in immediate mode and as `M[M[s]]` in position mode, and faults with `Bounds` at
the slot or at the operand exactly where that access lies outside memory. -/
def Obligations.SourceOperandsFollowTheirMode : Prop :=
  ∀ (s : State) (slot : Nat) (m : Mode),
    (∀ v, readOperand s slot m = .ok v ↔ Reads s slot m v) ∧
    (∀ f, readOperand s slot m = .error f ↔ ∃ i, ReadsOutside s slot m i ∧ f = .bounds i s.ip)

/-- R60: a destination resolves to the slot itself in immediate mode under `permit` (the default), to the slot's word in
position mode, and faults with `ImmediateDestination` under `fault`; ADD and MUL meet that fault after both source reads,
IN before the prompt, so that no port event happens.  Under `permit` an immediate destination is replaced by the result. -/
def Obligations.ImmediateDestinationsFollowThePolicy : Prop :=
  Params.default.immDst = .permit ∧
  (∀ (s : State) (slot : Nat),
    (∀ d, resolveDst s slot .position = .ok d ↔ s.mem[slot]? = some d) ∧
    (s.params.immDst = .permit → resolveDst s slot .immediate = .ok (slot : Int)) ∧
    (s.params.immDst = .fault → resolveDst s slot .immediate = .error (.immediateDestination slot s.ip))) ∧
  (∀ (s : State) (m1 m2 m3 : Mode), s.params.immDst = .permit →
    (∀ (op : AluOp) (a b r : Int), Reads s (s.ip + 1) m1 a → Reads s (s.ip + 2) m2 b → narrow op s a b = .ok r →
      s.ip + 3 < s.mem.length →
      exec (op.instr m1 m2 .immediate) s = .next { s with mem := s.mem.set (s.ip + 3) r, ip := s.ip + 4 }) ∧
    (∀ (v : Int) (rest : List InAnswer), s.outLeft ≠ some 0 → s.inputs = .value v :: rest → s.ip + 1 < s.mem.length →
      ∃ t, exec (.inp .immediate m2 m3) s = .next t ∧ t.mem = s.mem.set (s.ip + 1) v ∧ t.ip = s.ip + 2)) ∧
  ∀ (s : State) (m1 m2 m3 : Mode), s.params.immDst = .fault →
    (∀ (op : AluOp) (a b : Int), Reads s (s.ip + 1) m1 a → Reads s (s.ip + 2) m2 b →
      exec (op.instr m1 m2 .immediate) s =
        .next { s with fault := some (.immediateDestination (s.ip + 3) s.ip), waiting := false }) ∧
    (∀ (op : AluOp) (i : Int), ReadsOutside s (s.ip + 1) m1 i →
      exec (op.instr m1 m2 .immediate) s = .next { s with fault := some (.bounds i s.ip), waiting := false }) ∧
    (∀ (op : AluOp) (a i : Int), Reads s (s.ip + 1) m1 a → ReadsOutside s (s.ip + 2) m2 i →
      exec (op.instr m1 m2 .immediate) s = .next { s with fault := some (.bounds i s.ip), waiting := false }) ∧
    exec (.inp .immediate m2 m3) s =
      .next { s with fault := some (.immediateDestination (s.ip + 1) s.ip), waiting := false }

/-! ### The ALU -/

/-- R10: `wrap_W` is the one word congruent to its argument modulo 2^W. -/
def Obligations.WrapIsTheCongruentWord : Prop :=
  ∀ (W : Nat) (x : Int), 1 ≤ W →
    Word.InRange W (wrapWord W x) ∧ ((2 ^ W : Nat) : Int) ∣ x - wrapWord W x ∧
      ∀ r, Word.InRange W r → ((2 ^ W : Nat) : Int) ∣ x - r → r = wrapWord W x

/-- R75, R76: the exact sum or product where it is a word, else a fault or its wrap; addition does not depend on operand
order, a zero operand is neutral or absorbing, and `(-2^(W-1)) * (-1)` is out of range. -/
def Obligations.AluNarrowsTheExactResult : Prop :=
  (∀ (s : State) (a b : Int),
    (Word.InRange s.params.wordBits (a + b) → aluAdd s a b = .ok (a + b)) ∧
    (¬Word.InRange s.params.wordBits (a + b) → s.params.overflow = .fault →
      aluAdd s a b = .error (.overflow .add a b s.ip)) ∧
    (¬Word.InRange s.params.wordBits (a + b) → s.params.overflow = .wrap →
      aluAdd s a b = .ok (wrapWord s.params.wordBits (a + b))) ∧
    (Word.InRange s.params.wordBits (a * b) → aluMul s a b = .ok (a * b)) ∧
    (¬Word.InRange s.params.wordBits (a * b) → s.params.overflow = .fault →
      aluMul s a b = .error (.overflow .mul a b s.ip)) ∧
    (¬Word.InRange s.params.wordBits (a * b) → s.params.overflow = .wrap →
      aluMul s a b = .ok (wrapWord s.params.wordBits (a * b))) ∧
    (∀ r, aluAdd s a b = .ok r ↔ aluAdd s b a = .ok r) ∧
    (Word.InRange s.params.wordBits a → aluAdd s 0 a = .ok a ∧ aluAdd s a 0 = .ok a) ∧
    (aluMul s 0 a = .ok 0 ∧ aluMul s a 0 = .ok 0) ∧
    (∀ r, a < 0 → b < 0 → Word.InRange s.params.wordBits (a * b) → aluMul s a b = .ok r → 0 < r)) ∧
  ∀ (W : Nat) (x : Int),
    wrapWord W x = (x + ((2 ^ (W - 1) : Nat) : Int)) % ((2 ^ W : Nat) : Int) - ((2 ^ (W - 1) : Nat) : Int) ∧
    ¬Word.InRange W ((-((2 ^ (W - 1) : Nat) : Int)) * (-1))

/-! ### The instructions: result, completion and exceptions -/

/-- R77, R78: ADD and MUL whole: the encoding; the exceptions in the order they can arise; and, on every state where none
does, the next state, which differs from the state before in the destination word and in ip alone. -/
def Obligations.AddAndMulFollowTheirRules : Prop :=
  ∀ (op : AluOp) (s : State) (m1 m2 m3 : Mode),
    encodeWord (op.instr m1 m2 m3) =
      (match op with | .add => 1 | .mul => 2) + 100 * m1.digit + 1000 * m2.digit + 10000 * m3.digit ∧
    (∀ i, ReadsOutside s (s.ip + 1) m1 i →
      exec (op.instr m1 m2 m3) s = .next { s with fault := some (.bounds i s.ip), waiting := false }) ∧
    (∀ a i, Reads s (s.ip + 1) m1 a → ReadsOutside s (s.ip + 2) m2 i →
      exec (op.instr m1 m2 m3) s = .next { s with fault := some (.bounds i s.ip), waiting := false }) ∧
    (∀ a b f, Reads s (s.ip + 1) m1 a → Reads s (s.ip + 2) m2 b → TargetFault s (s.ip + 3) m3 f →
      exec (op.instr m1 m2 m3) s = .next { s with fault := some f, waiting := false }) ∧
    (∀ a b d x, Reads s (s.ip + 1) m1 a → Reads s (s.ip + 2) m2 b → Targets s (s.ip + 3) m3 d →
      x = (match op with | .add => a + b | .mul => a * b) →
      (¬Word.InRange s.params.wordBits x → s.params.overflow = .fault →
        exec (op.instr m1 m2 m3) s = .next { s with fault := some (.overflow op a b s.ip), waiting := false }) ∧
      (∀ r, (Word.InRange s.params.wordBits x ∧ r = x) ∨
          (¬Word.InRange s.params.wordBits x ∧ s.params.overflow = .wrap ∧ r = wrapWord s.params.wordBits x) →
        (¬(0 ≤ d ∧ d < s.mem.length) →
          exec (op.instr m1 m2 m3) s = .next { s with fault := some (.bounds d s.ip), waiting := false }) ∧
        (0 ≤ d → d < s.mem.length →
          exec (op.instr m1 m2 m3) s = .next { s with mem := s.mem.set d.toNat r, ip := s.ip + 4 })))

/-- R80: IN whole: the encoding; a destination that faults, before any port event; a prompt that fails; and, once the prompt
is sent and the request made (by this step, or before it by an IN already in flight), the wait, the two failures of the
answer, the destination outside memory, and the value stored.  That an IN without an
answer ends a step in the wait, and an IN in flight sends no second prompt, is the model's way of holding the wait
(assumption 3, DEDUCED).  A prompt the port answers `IoError` has been sent (R27), and no request follows it. -/
def Obligations.InFollowsItsRule : Prop :=
  ∀ (s : State) (m1 m2 m3 : Mode),
    encodeWord (.inp m1 m2 m3) = 3 + 100 * m1.digit + 1000 * m2.digit + 10000 * m3.digit ∧
    (∀ f, TargetFault s (s.ip + 1) m1 f →
      exec (.inp m1 m2 m3) s = .next { s with fault := some f, waiting := false }) ∧
    (∀ d, Targets s (s.ip + 1) m1 d →
      (s.waiting = false → s.outLeft = some 0 →
        exec (.inp m1 m2 m3) s = .next { s with
          events := s.events ++ [.prompt], fault := some (.ioError .output s.ip) }) ∧
      (∀ u : State,
        (s.waiting = false ∧ s.outLeft ≠ some 0 ∧ u = { s with
          events := s.events ++ [.prompt], outLeft := s.outLeft.map (· - 1), requests := s.requests + 1 }) ∨
        (s.waiting = true ∧ u = s) →
        (s.inputs = [] → exec (.inp m1 m2 m3) s = .next { u with waiting := true }) ∧
        (∀ rest, s.inputs = .ioError :: rest →
          exec (.inp m1 m2 m3) s =
            .next { u with inputs := rest, waiting := false, fault := some (.ioError .input s.ip) }) ∧
        (∀ line rest, s.inputs = .formatError line :: rest →
          exec (.inp m1 m2 m3) s =
            .next { u with inputs := rest, waiting := false, fault := some (.inputFormat line s.ip) }) ∧
        (∀ v rest, s.inputs = .value v :: rest →
          (¬(0 ≤ d ∧ d < s.mem.length) →
            exec (.inp m1 m2 m3) s =
              .next { u with inputs := rest, waiting := false, fault := some (.bounds d s.ip) }) ∧
          (0 ≤ d → d < s.mem.length →
            exec (.inp m1 m2 m3) s = .next { u with
              inputs := rest, waiting := false, mem := s.mem.set d.toNat v, ip := s.ip + 2 }))))

/-- R81: OUT whole: the encoding; an operand outside memory, before any event is sent; an output port that fails; and the
event sent and ip advanced.  An event the port answers `IoError` has been sent (R27). -/
def Obligations.OutFollowsItsRule : Prop :=
  ∀ (s : State) (m1 m2 m3 : Mode),
    encodeWord (.out m1 m2 m3) = 4 + 100 * m1.digit + 1000 * m2.digit + 10000 * m3.digit ∧
    (∀ i, ReadsOutside s (s.ip + 1) m1 i →
      exec (.out m1 m2 m3) s = .next { s with fault := some (.bounds i s.ip), waiting := false }) ∧
    (∀ v, Reads s (s.ip + 1) m1 v →
      (s.outLeft = some 0 →
        exec (.out m1 m2 m3) s = .next { s with
          events := s.events ++ [.value v], fault := some (.ioError .output s.ip), waiting := false }) ∧
      (s.outLeft ≠ some 0 →
        exec (.out m1 m2 m3) s = .next { s with
          events := s.events ++ [.value v], outLeft := s.outLeft.map (· - 1), ip := s.ip + 2 }))

/-- R89: HALT whole: its word with each mode 0 or 1 and no other, and, for every form and on every running state that
fetches one, the halted flag set and nothing else. -/
def Obligations.HaltFollowsItsRule : Prop :=
  ∀ (m1 m2 m3 : Mode),
    encodeWord (.halt m1 m2 m3) = 99 + 100 * m1.digit + 1000 * m2.digit + 10000 * m3.digit ∧
    (∀ s : State, exec (.halt m1 m2 m3) s = .next { s with halted := true }) ∧
    (∀ (s : State), s.Running → s.mem[s.ip]? = some (encodeWord (.halt m1 m2 m3)) →
      step s = .next { s with halted := true }) ∧
    ∀ (s : State), s.Running → s.mem[s.ip]? = some 20099 →
      step s = .next { s with fault := some (.unknownMode 20099 3 2 s.ip), waiting := false }

/-- R62: the modes an instruction has no parameter for have no effect on what it does. -/
def Obligations.UnusedModesHaveNoEffect : Prop :=
  ∀ (s : State) (m1 m2 m3 n1 n2 n3 : Mode),
    exec (.inp m1 m2 m3) s = exec (.inp m1 n2 n3) s ∧ exec (.out m1 m2 m3) s = exec (.out m1 n2 n3) s ∧
      exec (.halt m1 m2 m3) s = exec (.halt n1 n2 n3) s

/-! ### Frames -/

/-- R41, R69: every word of memory outside the address the instruction stores to reads after a step as before; OUT and
HALT, and every step that takes a fault, store nothing. -/
def Obligations.StepStoresOnlyWhereItsInstructionSays : Prop :=
  ∀ (s t : State), step s = .next t →
    (∀ i, fetch s = .ok i → ∀ a, storeAddress s i ≠ some a → Memory.read t.mem a = Memory.read s.mem a) ∧
    (∀ f, fetch s = .error f → t.mem = s.mem) ∧
    (s.fault = none → t.fault ≠ none → t.mem = s.mem)

/-- R16, R19, R23, R27: what the instructions leave unchanged outside memory and ip: the parameters always, the halted flag
but for HALT, the input channel but for IN, the output channel but for IN and OUT, and the wait, which only IN begins. -/
def Obligations.InstructionsLeaveTheRestUnchanged : Prop :=
  ∀ (i : Instr) (s t : State), exec i s = .next t →
    t.params = s.params ∧
    ((∀ m1 m2 m3, i ≠ .halt m1 m2 m3) → t.halted = s.halted) ∧
    ((∀ m1 m2 m3, i ≠ .inp m1 m2 m3) → t.inputs = s.inputs ∧ t.requests = s.requests ∧
      (t.waiting = true → s.waiting = true)) ∧
    ((∀ m1 m2 m3, i ≠ .inp m1 m2 m3) → (∀ m1 m2 m3, i ≠ .out m1 m2 m3) →
      t.events = s.events ∧ t.outLeft = s.outLeft) ∧
    ((∃ m1 m2 m3, i = .halt m1 m2 m3) → t = { s with halted := true })

/-- R44: a word stored by ADD or MUL over the next instruction's word is the word the next step decodes. -/
def Obligations.StoredWordIsTheNextInstruction : Prop :=
  ∀ (op : AluOp) (s t : State) (m1 m2 m3 : Mode) (a b r : Int) (i : Instr),
    s.Running → fetch s = .ok (op.instr m1 m2 m3) → Reads s (s.ip + 1) m1 a → Reads s (s.ip + 2) m2 b →
    Targets s (s.ip + 3) m3 ((s.ip : Int) + 4) → s.ip + 4 < s.mem.length → narrow op s a b = .ok r →
    decodeWord r = .ok i → step s = .next t → t.Running ∧ step t = exec i t

/-! ### The step -/

/-- R67: a step of a running machine fetches the word at ip, decodes it and runs the instruction it decoded; an ip outside
memory and a word that does not decode are the faults the spec names. -/
def Obligations.StepRunsTheDecodedInstruction : Prop :=
  ∀ (s : State), s.Running →
    (∀ w i, s.mem[s.ip]? = some w → decodeWord w = .ok i → step s = exec i s) ∧
    (s.mem.length ≤ s.ip → step s = .next { s with fault := some (.bounds s.ip s.ip), waiting := false }) ∧
    (∀ w op, s.mem[s.ip]? = some w → decodeWord w = .error (.unknownOpcode w op) →
      step s = .next { s with fault := some (.unknownOpcode w op s.ip), waiting := false }) ∧
    (∀ w k d, s.mem[s.ip]? = some w → decodeWord w = .error (.unknownMode w k d) →
      step s = .next { s with fault := some (.unknownMode w k d s.ip), waiting := false })

/-- R66: in a halted or faulted state no step is enabled and the state never changes again, in one step or in a run.  That
`step` answers the same state there is the model's way of enabling no step (assumption 7, DEDUCED). -/
def Obligations.HaltedAndFaultedStatesNeverChange : Prop :=
  ∀ (s : State), s.halted = true ∨ s.fault ≠ none →
    s.status ≠ .running ∧ step s = .next s ∧ (∀ n, runFor n s = s) ∧ run s = s

/-- R21: the three run statuses, and that halted and faulted exclude each other (the invariant's third condition on the
state). -/
def Obligations.RunStatusIsDerived : Prop :=
  ∀ (s : State), s.Inv →
    (s.status = .running ↔ s.halted = false ∧ s.fault = none) ∧ (s.status = .halted ↔ s.halted = true) ∧
      (s.status = .faulted ↔ s.fault ≠ none) ∧ ¬(s.halted = true ∧ s.fault ≠ none)

/-- R69, R92: a step that faults leaves memory, ip and halted as they are, records the faulting instruction's address, keeps
the port events it made before the fault (a value among them only where the output port failed that very event, R27), and
no step follows it, which in the model is a step that answers the same state (assumption 7, DEDUCED). -/
def Obligations.FaultLeavesMemoryAndIpAsTheyAre : Prop :=
  ∀ (s t : State) (f : Fault), s.Running → step s = .next t → t.fault = some f →
    t.mem = s.mem ∧ t.ip = s.ip ∧ t.halted = s.halted ∧ f.ip = s.ip ∧
      (t.events = s.events ∨ t.events = s.events ++ [.prompt] ∨
        (∃ v, t.events = s.events ++ [.value v] ∧ f = .ioError .output s.ip)) ∧
      (t.inputs = s.inputs ∨ ∃ a, s.inputs = a :: t.inputs) ∧ step t = .next t

/-- R68, R72: a completed step adds 4 for ADD and MUL, 2 for IN and OUT and nothing for HALT to ip; no step changes ip
otherwise. -/
def Obligations.IpAdvancesByFourTwoOrNothing : Prop :=
  ∀ (s t : State), s.Inv → s.Running → step s = .next t →
    (t.fault = none → t.waiting = false → ∃ i, fetch s = .ok i ∧
      t.ip = s.ip + (match i with
        | .add _ _ _ => 4 | .mul _ _ _ => 4 | .inp _ _ _ => 2 | .out _ _ _ => 2 | .halt _ _ _ => 0)) ∧
    (t.fault ≠ none ∨ t.waiting = true → t.ip = s.ip)

/-- R19, R91: HALT is the only instruction that writes the halted flag, always with true. -/
def Obligations.OnlyHaltSetsTheHaltedFlag : Prop :=
  ∀ (s t : State), step s = .next t → t.halted ≠ s.halted →
    s.halted = false ∧ t.halted = true ∧ ∃ m1 m2 m3, fetch s = .ok (.halt m1 m2 m3)

/-- The model's totality: a step of any state at all answers a next state; no fault ends the machine outside its own
record, and nothing is refused (R92, R66; assumption 7). -/
def Obligations.EveryStepAnswersANextState : Prop :=
  ∀ (s : State), ∃ t, step s = .next t

/-- R7: N is the length of the image and fixed for the whole run, whatever the host answers on either port, and it may be any
natural number. -/
def Obligations.MemoryKeepsTheImagesLength : Prop :=
  (∀ (p : Params) (image : List Int) (answers : List InAnswer) (left : Option Nat) (s : State) (n : Nat),
    startRun p image answers left = .next s → s.mem.length = image.length ∧ (runFor n s).mem.length = image.length) ∧
  ∀ (p : Params) (N : Nat), p.wf = true → ∃ (image : List Int) (s : State),
    image.length = N ∧ construct p image = .next s

/-- R27, R28, R80, R81: a step sends at most one event, after those already sent: IN its prompt, and then it makes its request
unless the port answers the prompt `IoError`, and OUT the value of its operand, whatever the port answers. -/
def Obligations.EventsAreSentOneAtATime : Prop :=
  ∀ (s t : State), step s = .next t →
    (t.events = s.events ∧ t.requests = s.requests) ∨
    (t.events = s.events ++ [.prompt] ∧ t.requests = s.requests + 1 ∧
      ∃ m1 m2 m3, fetch s = .ok (.inp m1 m2 m3)) ∨
    (t.events = s.events ++ [.prompt] ∧ t.requests = s.requests ∧ s.outLeft = some 0 ∧
      t.fault = some (.ioError .output s.ip) ∧ ∃ m1 m2 m3, fetch s = .ok (.inp m1 m2 m3)) ∨
    (∃ v m1 m2 m3, t.events = s.events ++ [.value v] ∧ t.requests = s.requests ∧
      fetch s = .ok (.out m1 m2 m3) ∧ Reads s (s.ip + 1) m1 v)

/-! ### The input wait -/

/-- R29: a running machine that meets the invariant takes a step that changes nothing exactly when it waits for an input
answer the host has not given, and from there it does as soon as the host answers.  The wait as a state between steps is
the model's (assumption 3, DEDUCED). -/
def Obligations.OnlyTheInputWaitHoldsTheMachine : Prop :=
  ∀ (s : State), s.Inv → s.Running →
    (step s = .next s ↔ s.Stuck) ∧
    (s.Stuck → ∀ a rest t, step (s.hostAnswers (a :: rest)) = .next t → t.waiting = false ∧ t.inputs = rest)

/-- R26, R29: when the host answers is its choice: an IN that waits and is then answered ends in the state of an IN that was
answered at once.  The wait is a flag between steps in the model, so that it costs one step more (assumption 3, DEDUCED);
the state it ends in is the same. -/
def Obligations.AnswerTimeDoesNotMatter : Prop :=
  ∀ (s : State) (m1 m2 m3 : Mode) (a : InAnswer) (rest : List InAnswer),
    s.Running → s.waiting = false → s.inputs = [] → fetch s = .ok (.inp m1 m2 m3) →
      ∃ t, step s = .next t ∧ step t = .next t ∧
        step (t.hostAnswers (a :: rest)) = step (s.hostAnswers (a :: rest))

/-- R26, R27, R115: the channels reach no ADD, MUL or HALT: with other answers and another output port the step does the
same and leaves those as they were; and an OUT does not depend on the answers. -/
def Obligations.ChannelsReachOnlyInAndOut : Prop :=
  ∀ (s t : State) (i : Instr) (answers : List InAnswer) (left : Option Nat),
    fetch s = .ok i → (∀ m1 m2 m3, i ≠ .inp m1 m2 m3) → step s = .next t →
      step { s with inputs := answers } = .next { t with inputs := answers } ∧
      ((∀ m1 m2 m3, i ≠ .out m1 m2 m3) →
        step { s with inputs := answers, outLeft := left } = .next { t with inputs := answers, outLeft := left })

/-! ### Reset, the invariant and runs -/

/-- R30, R111, R112, R116: construction from an image of words sets memory, ip, halted and fault as the rule says, with the
run status running; an image with an element outside the word range is refused. -/
def Obligations.ConstructionSetsTheLaunchState : Prop :=
  ∀ (p : Params) (image : List Int), p.wf = true →
    ((∀ v ∈ image, Word.InRange p.wordBits v) → ∃ s, construct p image = .next s ∧ s.params = p ∧ s.mem = image ∧
      s.ip = 0 ∧ s.halted = false ∧ s.fault = none ∧ s.status = .running) ∧
    ((∃ v ∈ image, ¬Word.InRange p.wordBits v) → construct p image = .refused .imageWordOutOfRange)

/-- R113: an empty image is accepted, and its first step faults with `Bounds` at index 0. -/
def Obligations.EmptyImageFaultsAtIndexZero : Prop :=
  ∀ (p : Params), p.wf = true → ∃ s, construct p [] = .next s ∧
    step s = .next { s with fault := some (.bounds 0 0) }

/-- The invariant holds of the machine the model resets to, which is the one of the empty image at the width the model chose
(assumption 1), and of every state a run starts from whose answers are words (R26, R111, R116, R124), for every output
port. -/
def Obligations.ConstructionMeetsTheInvariant : Prop :=
  construct Params.default [] = .next State.reset ∧ State.reset.Inv ∧
  ∀ (p : Params) (image : List Int) (answers : List InAnswer) (left : Option Nat) (s : State),
    startRun p image answers left = .next s → (∀ a ∈ answers, a.IsWord p.wordBits) → s.Inv

/-- The invariant is kept by every step, from every state that meets it: memory, answers and events stay words, halted and
faulted exclude each other, a fault stands at its instruction and a halted machine at its HALT word, only an IN waits, and
the prompts sent are the requests made, and one more where the output port failed the last prompt (R6, R17, R21, R26, R27,
R80, R89, R98, R102). -/
def Obligations.EveryStepKeepsTheInvariant : Prop :=
  ∀ (s t : State), s.Inv → step s = .next t → t.Inv

/-- R73: every run that is never stuck waiting for input has ended, halted or faulted, after at most ceil(N/2) + 1 steps. -/
def Obligations.RunsEndWithinTheBound : Prop :=
  ∀ (s : State), HostAnswersInput s →
    (runFor ((s.mem.length + 1) / 2 + 1) s).status = .halted ∨ (runFor ((s.mem.length + 1) / 2 + 1) s).status = .faulted

/-- R71: a run ends in exactly one of three ways: halted, faulted, or stuck in an IN step whose input never comes; and R73's
bound is enough turns of the loop to get there (`run`). -/
def Obligations.RunEndsInExactlyOneOfThreeWays : Prop :=
  ∀ (s : State), s.Inv →
    ((run s).status = .halted ∧ ¬(run s).Stuck) ∨ ((run s).status = .faulted ∧ ¬(run s).Stuck) ∨
      ((run s).status = .running ∧ (run s).Stuck ∧ ∃ m1 m2 m3, fetch (run s) = .ok (.inp m1 m2 m3))

/-- R118, R123: a run that ends normally stands on a HALT word inside memory, has recorded no fault, and has sent one prompt
for every request it made. -/
def Obligations.NormalEndStandsOnAHaltWord : Prop :=
  ∀ (s : State) (n : Nat), s.Inv → (runFor n s).NormalEnd →
    (runFor n s).fault = none ∧ (runFor n s).ip < s.mem.length ∧
      (∃ w m1 m2 m3, (runFor n s).mem[(runFor n s).ip]? = some w ∧ decodeWord w = .ok (.halt m1 m2 m3)) ∧
      (runFor n s).events.count .prompt = (runFor n s).requests

/-! ### The channel text -/

/-- R86: the decimal form: a `-` for a negative value and no sign otherwise, digits with no leading zero, and `0` for zero. -/
def Obligations.DecimalTextIsCanonical : Prop :=
  decimal 0 = ['0'] ∧
  (∀ v : Int, v < 0 → decimal v = '-' :: decimal (-v)) ∧
  ∀ v : Int, 0 < v → ∃ c ds, decimal v = c :: ds ∧ c ≠ '0' ∧
    ∀ x ∈ c :: ds, x ∈ ['0', '1', '2', '3', '4', '5', '6', '7', '8', '9']

/-- R84, R85, R87: the text of the events, in order: the prompt's three characters without a terminator, a value's line with
its line feed. -/
def Obligations.EventsRenderInOrder : Prop :=
  renderEvents [] = [] ∧
  (∀ es, renderEvents (.prompt :: es) = ['?', '>', ' '] ++ renderEvents es) ∧
  (∀ v es, renderEvents (.value v :: es) = ['#', '>', ' '] ++ decimal v ++ ['\n'] ++ renderEvents es) ∧
  ∀ es fs, renderEvents (es ++ fs) = renderEvents es ++ renderEvents fs

/-- R83, R86: what the output channel writes for a word, the input channel reads back as that word, whatever white space
stands around it.  Which characters are white space is the model's choice (assumption 10). -/
def Obligations.DecimalTextReadsBack : Prop :=
  ∀ (W : Nat) (v : Int) (pre post : Text), Word.InRange W v → (∀ c ∈ pre, isTrimmed c = true) →
    (∀ c ∈ post, isTrimmed c = true) → answerLine W (pre ++ decimal v ++ post) = .value v

/-- R82, R83: the lines that answer a value are exactly those that, trimmed (assumption 10), are an optional sign and one or
more digits with a value in the word range; any other answers `FormatError` with the line; and a stream that has ended
answers `IoError`. -/
def Obligations.AcceptedLinesAreSignedDecimals : Prop :=
  (∀ (W : Nat) (line : Text) (v : Int), answerLine W line = .value v ↔
    Word.InRange W v ∧ ∃ sign digits : Text, trim line = sign ++ digits ∧ digits ≠ [] ∧
      (∀ c ∈ digits, c ∈ ['0', '1', '2', '3', '4', '5', '6', '7', '8', '9']) ∧
      ((sign = [] ∨ sign = ['+']) ∧ v = (digits.foldl (fun n c => n * 10 + (c.toNat - 48)) 0 : Nat) ∨
        sign = ['-'] ∧ v = -((digits.foldl (fun n c => n * 10 + (c.toNat - 48)) 0 : Nat) : Int))) ∧
  (∀ (W : Nat) (line : Text), (∀ v, answerLine W line ≠ .value v) → answerLine W line = .formatError line) ∧
  ∀ (W : Nat) (lines : List Text),
    (streamAnswers W lines).length = lines.length + 1 ∧
    (∀ (k : Nat) line, lines[k]? = some line → (streamAnswers W lines)[k]? = some (answerLine W line)) ∧
    (streamAnswers W lines)[lines.length]? = some .ioError

/-! ### The launch premises -/

/-- R124: a run starts from `construct(image)`: fault none, halted false, ip 0, memory the image, nothing in flight, nothing
observed yet; and what is free is the parameters, the image and the host's answers on the input and the output port, each
at any value.  An image with an element outside the word range starts no run (R116).  How the two ports' answers stand in
the state is the model's (assumptions 3 to 5). -/
def Obligations.RunsStartFromTheLaunchPremisesAlone : Prop :=
  ∀ (p : Params) (image : List Int) (answers : List InAnswer) (left : Option Nat), p.wf = true →
    ((∀ v ∈ image, Word.InRange p.wordBits v) →
      startRun p image answers left = .next {
        mem := image, ip := 0, halted := false, fault := none, params := p, waiting := false, inputs := answers,
        requests := 0, outLeft := left, events := [] }) ∧
    ((∃ v ∈ image, ¬Word.InRange p.wordBits v) →
      startRun p image answers left = .refused .imageWordOutOfRange)

/-- R27, R98: along every run the output port takes the events its answers allow and no more.  A port that never fails goes on
so, and never faults the run; one that takes k more events has, at every turn, taken as many of them as events were sent,
or has taken all k and answered `IoError` to the next, which has been sent and has ended the run.  How the port's answers
stand in the state is the model's (assumption 5). -/
def Obligations.OutputPortTakesTheEventsItsAnswersAllow : Prop :=
  ∀ (s : State) (n : Nat), s.fault = none →
    (s.outLeft = none →
      (runFor n s).outLeft = none ∧ ∀ ip, (runFor n s).fault ≠ some (.ioError .output ip)) ∧
    (∀ k, s.outLeft = some k → ∃ j, (runFor n s).outLeft = some j ∧
      ((∀ ip, (runFor n s).fault ≠ some (.ioError .output ip)) ∧
          (runFor n s).events.length + j = s.events.length + k ∨
        (∃ ip, (runFor n s).fault = some (.ioError .output ip)) ∧ j = 0 ∧
          (runFor n s).events.length = s.events.length + k + 1))
end

