-- ==== Sys2Proof/Laws/Decode.lean ====
section
/-! SUPPORT. What the decoder can answer, said once. -/

namespace Sys2Proof

theorem modeOfDigit_eq_some_iff {d : Int} {m : Mode} : modeOfDigit d = some m ↔ d = m.digit := by
  unfold modeOfDigit
  cases m <;> split <;> simp_all [Mode.digit]

theorem modeOfDigit_eq_none_iff {d : Int} : modeOfDigit d = none ↔ d ≠ 0 ∧ d ≠ 1 := by
  unfold modeOfDigit
  split <;> simp_all

theorem decodeMode_ok_iff {w : Int} {k : Nat} {m : Mode} :
    decodeMode w k = .ok m ↔ digit (k + 1) w = m.digit := by
  unfold decodeMode
  rw [← modeOfDigit_eq_some_iff]
  split <;> simp_all

theorem decodeMode_error_iff {w : Int} {k : Nat} {e : DecodeError} :
    decodeMode w k = .error e ↔
      (digit (k + 1) w ≠ 0 ∧ digit (k + 1) w ≠ 1) ∧ e = .unknownMode w k (digit (k + 1) w) := by
  unfold decodeMode
  rw [← modeOfDigit_eq_none_iff]
  cases modeOfDigit (digit (k + 1) w) <;> simp [eq_comm]

/-- The instruction the opcode map builds has that opcode and the modes it was given. -/
theorem instrOfOpcode_eq_some {op : Int} {mk : Mode → Mode → Mode → Instr} (h : instrOfOpcode op = some mk)
    (m1 m2 m3 : Mode) : (mk m1 m2 m3).opcode = op ∧ (mk m1 m2 m3).modes = (m1, m2, m3) := by
  unfold instrOfOpcode at h
  repeat' split at h
  all_goals first
    | (cases h; simp_all [Instr.opcode, Instr.modes])
    | cases h

/-- Every instruction is what the opcode map builds from its opcode and modes. -/
theorem instrOfOpcode_opcode (i : Instr) :
    ∃ mk, instrOfOpcode i.opcode = some mk ∧ i = mk i.modes.1 i.modes.2.1 i.modes.2.2 := by
  cases i <;> exact ⟨_, rfl, rfl⟩

theorem instrOfOpcode_eq_none_iff {op : Int} :
    instrOfOpcode op = none ↔ op ∉ ([1, 2, 3, 4, 99] : List Int) := by
  unfold instrOfOpcode
  repeat' split
  all_goals simp_all

/-- R55: a word decodes to `i` exactly when its opcode field and its three mode digits are those of `i`. -/
theorem decodeWord_ok_iff {w : Int} {i : Instr} :
    decodeWord w = .ok i ↔ opcodeOf w = i.opcode ∧ digit 2 w = i.modes.1.digit ∧
      digit 3 w = i.modes.2.1.digit ∧ digit 4 w = i.modes.2.2.digit := by
  constructor
  · intro h
    unfold decodeWord at h
    split at h
    · cases h
    · rename_i mk hop
      repeat' split at h
      all_goals first | (cases h; done) | skip
      rename_i _ m1 h1 _ m2 h2 _ m3 h3
      obtain rfl : mk m1 m2 m3 = i := by simpa using h
      obtain ⟨ho, hm⟩ := instrOfOpcode_eq_some hop m1 m2 m3
      rw [decodeMode_ok_iff] at h1 h2 h3
      simp_all
  · rintro ⟨ho, h1, h2, h3⟩
    obtain ⟨mk, hmk, hi⟩ := instrOfOpcode_opcode i
    rw [← decodeMode_ok_iff (k := 1)] at h1
    rw [← decodeMode_ok_iff (k := 2)] at h2
    rw [← decodeMode_ok_iff (k := 3)] at h3
    unfold decodeWord
    rw [ho, hmk]
    simp only [h1, h2, h3]
    rw [← hi]

end Sys2Proof
end

