-- ==== Sys2Proof/Laws/State.lean ====
section
/-! SUPPORT. One lemma per field of State and update of it, all by `rfl`, so that no later proof unfolds a record update;
and what the derived status says. -/

namespace Sys2Proof.Machine

/-! ### `State.raise` -/

@[simp] theorem State.raise_mem (s : State) (f : Fault) : (s.raise f).mem = s.mem := rfl
@[simp] theorem State.raise_ip (s : State) (f : Fault) : (s.raise f).ip = s.ip := rfl
@[simp] theorem State.raise_halted (s : State) (f : Fault) : (s.raise f).halted = s.halted := rfl
@[simp] theorem State.raise_fault (s : State) (f : Fault) : (s.raise f).fault = some f := rfl
@[simp] theorem State.raise_params (s : State) (f : Fault) : (s.raise f).params = s.params := rfl
@[simp] theorem State.raise_waiting (s : State) (f : Fault) : (s.raise f).waiting = false := rfl
@[simp] theorem State.raise_inputs (s : State) (f : Fault) : (s.raise f).inputs = s.inputs := rfl
@[simp] theorem State.raise_requests (s : State) (f : Fault) : (s.raise f).requests = s.requests := rfl
@[simp] theorem State.raise_outLeft (s : State) (f : Fault) : (s.raise f).outLeft = s.outLeft := rfl
@[simp] theorem State.raise_events (s : State) (f : Fault) : (s.raise f).events = s.events := rfl

/-! ### `State.advance` -/

@[simp] theorem State.advance_mem (s : State) (n : Nat) : (s.advance n).mem = s.mem := rfl
@[simp] theorem State.advance_ip (s : State) (n : Nat) : (s.advance n).ip = s.ip + n := rfl
@[simp] theorem State.advance_halted (s : State) (n : Nat) : (s.advance n).halted = s.halted := rfl
@[simp] theorem State.advance_fault (s : State) (n : Nat) : (s.advance n).fault = s.fault := rfl
@[simp] theorem State.advance_params (s : State) (n : Nat) : (s.advance n).params = s.params := rfl
@[simp] theorem State.advance_waiting (s : State) (n : Nat) : (s.advance n).waiting = s.waiting := rfl
@[simp] theorem State.advance_inputs (s : State) (n : Nat) : (s.advance n).inputs = s.inputs := rfl
@[simp] theorem State.advance_requests (s : State) (n : Nat) : (s.advance n).requests = s.requests := rfl
@[simp] theorem State.advance_outLeft (s : State) (n : Nat) : (s.advance n).outLeft = s.outLeft := rfl
@[simp] theorem State.advance_events (s : State) (n : Nat) : (s.advance n).events = s.events := rfl

/-! ### `State.sent` -/

@[simp] theorem State.sent_mem (s : State) (e : OutEvent) : (s.sent e).mem = s.mem := rfl
@[simp] theorem State.sent_ip (s : State) (e : OutEvent) : (s.sent e).ip = s.ip := rfl
@[simp] theorem State.sent_halted (s : State) (e : OutEvent) : (s.sent e).halted = s.halted := rfl
@[simp] theorem State.sent_fault (s : State) (e : OutEvent) : (s.sent e).fault = s.fault := rfl
@[simp] theorem State.sent_params (s : State) (e : OutEvent) : (s.sent e).params = s.params := rfl
@[simp] theorem State.sent_waiting (s : State) (e : OutEvent) : (s.sent e).waiting = s.waiting := rfl
@[simp] theorem State.sent_inputs (s : State) (e : OutEvent) : (s.sent e).inputs = s.inputs := rfl
@[simp] theorem State.sent_requests (s : State) (e : OutEvent) : (s.sent e).requests = s.requests := rfl
@[simp] theorem State.sent_outLeft (s : State) (e : OutEvent) : (s.sent e).outLeft = s.outLeft.map (· - 1) := rfl
@[simp] theorem State.sent_events (s : State) (e : OutEvent) : (s.sent e).events = s.events ++ [e] := rfl

/-! ### `State.request` -/

@[simp] theorem State.request_mem (s : State) : (s.request).mem = s.mem := rfl
@[simp] theorem State.request_ip (s : State) : (s.request).ip = s.ip := rfl
@[simp] theorem State.request_halted (s : State) : (s.request).halted = s.halted := rfl
@[simp] theorem State.request_fault (s : State) : (s.request).fault = s.fault := rfl
@[simp] theorem State.request_params (s : State) : (s.request).params = s.params := rfl
@[simp] theorem State.request_waiting (s : State) : (s.request).waiting = true := rfl
@[simp] theorem State.request_inputs (s : State) : (s.request).inputs = s.inputs := rfl
@[simp] theorem State.request_requests (s : State) : (s.request).requests = s.requests + 1 := rfl
@[simp] theorem State.request_outLeft (s : State) : (s.request).outLeft = s.outLeft := rfl
@[simp] theorem State.request_events (s : State) : (s.request).events = s.events := rfl

/-! ### `State.takeInput` -/

@[simp] theorem State.takeInput_mem (s : State) (rest : List InAnswer) : (s.takeInput rest).mem = s.mem := rfl
@[simp] theorem State.takeInput_ip (s : State) (rest : List InAnswer) : (s.takeInput rest).ip = s.ip := rfl
@[simp] theorem State.takeInput_halted (s : State) (rest : List InAnswer) : (s.takeInput rest).halted = s.halted := rfl
@[simp] theorem State.takeInput_fault (s : State) (rest : List InAnswer) : (s.takeInput rest).fault = s.fault := rfl
@[simp] theorem State.takeInput_params (s : State) (rest : List InAnswer) : (s.takeInput rest).params = s.params := rfl
@[simp] theorem State.takeInput_waiting (s : State) (rest : List InAnswer) : (s.takeInput rest).waiting = false := rfl
@[simp] theorem State.takeInput_inputs (s : State) (rest : List InAnswer) : (s.takeInput rest).inputs = rest := rfl
@[simp] theorem State.takeInput_requests (s : State) (rest : List InAnswer) : (s.takeInput rest).requests = s.requests := rfl
@[simp] theorem State.takeInput_outLeft (s : State) (rest : List InAnswer) : (s.takeInput rest).outLeft = s.outLeft := rfl
@[simp] theorem State.takeInput_events (s : State) (rest : List InAnswer) : (s.takeInput rest).events = s.events := rfl

/-! ### `State.hostAnswers` -/

@[simp] theorem State.hostAnswers_mem (s : State) (as : List InAnswer) : (s.hostAnswers as).mem = s.mem := rfl
@[simp] theorem State.hostAnswers_ip (s : State) (as : List InAnswer) : (s.hostAnswers as).ip = s.ip := rfl
@[simp] theorem State.hostAnswers_halted (s : State) (as : List InAnswer) : (s.hostAnswers as).halted = s.halted := rfl
@[simp] theorem State.hostAnswers_fault (s : State) (as : List InAnswer) : (s.hostAnswers as).fault = s.fault := rfl
@[simp] theorem State.hostAnswers_params (s : State) (as : List InAnswer) : (s.hostAnswers as).params = s.params := rfl
@[simp] theorem State.hostAnswers_waiting (s : State) (as : List InAnswer) : (s.hostAnswers as).waiting = s.waiting := rfl
@[simp] theorem State.hostAnswers_inputs (s : State) (as : List InAnswer) : (s.hostAnswers as).inputs = s.inputs ++ as := rfl
@[simp] theorem State.hostAnswers_requests (s : State) (as : List InAnswer) : (s.hostAnswers as).requests = s.requests := rfl
@[simp] theorem State.hostAnswers_outLeft (s : State) (as : List InAnswer) : (s.hostAnswers as).outLeft = s.outLeft := rfl
@[simp] theorem State.hostAnswers_events (s : State) (as : List InAnswer) : (s.hostAnswers as).events = s.events := rfl

/-! ### `State.outputTakes` -/

@[simp] theorem State.outputTakes_mem (s : State) (left : Option Nat) : (s.outputTakes left).mem = s.mem := rfl
@[simp] theorem State.outputTakes_ip (s : State) (left : Option Nat) : (s.outputTakes left).ip = s.ip := rfl
@[simp] theorem State.outputTakes_halted (s : State) (left : Option Nat) : (s.outputTakes left).halted = s.halted := rfl
@[simp] theorem State.outputTakes_fault (s : State) (left : Option Nat) : (s.outputTakes left).fault = s.fault := rfl
@[simp] theorem State.outputTakes_params (s : State) (left : Option Nat) : (s.outputTakes left).params = s.params := rfl
@[simp] theorem State.outputTakes_waiting (s : State) (left : Option Nat) : (s.outputTakes left).waiting = s.waiting := rfl
@[simp] theorem State.outputTakes_inputs (s : State) (left : Option Nat) : (s.outputTakes left).inputs = s.inputs := rfl
@[simp] theorem State.outputTakes_requests (s : State) (left : Option Nat) : (s.outputTakes left).requests = s.requests := rfl
@[simp] theorem State.outputTakes_outLeft (s : State) (left : Option Nat) : (s.outputTakes left).outLeft = left := rfl
@[simp] theorem State.outputTakes_events (s : State) (left : Option Nat) : (s.outputTakes left).events = s.events := rfl

/-! ### `State.launched` -/

section

variable (p : Params) (image : List Int) (answers : List InAnswer) (left : Option Nat)

@[simp] theorem State.launched_mem : (State.launched p image answers left).mem = image := rfl
@[simp] theorem State.launched_ip : (State.launched p image answers left).ip = 0 := rfl
@[simp] theorem State.launched_halted : (State.launched p image answers left).halted = false := rfl
@[simp] theorem State.launched_fault : (State.launched p image answers left).fault = none := rfl
@[simp] theorem State.launched_params : (State.launched p image answers left).params = p := rfl
@[simp] theorem State.launched_waiting : (State.launched p image answers left).waiting = false := rfl
@[simp] theorem State.launched_inputs : (State.launched p image answers left).inputs = answers := rfl
@[simp] theorem State.launched_requests : (State.launched p image answers left).requests = 0 := rfl
@[simp] theorem State.launched_outLeft : (State.launched p image answers left).outLeft = left := rfl
@[simp] theorem State.launched_events : (State.launched p image answers left).events = [] := rfl

end

/-! ### `State.setHalted` -/

@[simp] theorem State.setHalted_mem (s : State) : (s.setHalted).mem = s.mem := rfl
@[simp] theorem State.setHalted_ip (s : State) : (s.setHalted).ip = s.ip := rfl
@[simp] theorem State.setHalted_halted (s : State) : (s.setHalted).halted = true := rfl
@[simp] theorem State.setHalted_fault (s : State) : (s.setHalted).fault = s.fault := rfl
@[simp] theorem State.setHalted_params (s : State) : (s.setHalted).params = s.params := rfl
@[simp] theorem State.setHalted_waiting (s : State) : (s.setHalted).waiting = s.waiting := rfl
@[simp] theorem State.setHalted_inputs (s : State) : (s.setHalted).inputs = s.inputs := rfl
@[simp] theorem State.setHalted_requests (s : State) : (s.setHalted).requests = s.requests := rfl
@[simp] theorem State.setHalted_outLeft (s : State) : (s.setHalted).outLeft = s.outLeft := rfl
@[simp] theorem State.setHalted_events (s : State) : (s.setHalted).events = s.events := rfl

/-! ### Derived facts -/

@[simp] theorem State.slot_eq (s : State) (k : Nat) : s.slot k = s.ip + k := rfl

theorem status_running (s : State) : s.status = .running ↔ s.Running := by
  unfold State.status State.Running
  cases s.fault <;> cases s.halted <;> simp

theorem status_faulted (s : State) : s.status = .faulted ↔ s.fault ≠ none := by
  unfold State.status
  cases s.fault <;> cases s.halted <;> simp

theorem status_halted (s : State) : s.status = .halted ↔ s.fault = none ∧ s.halted = true := by
  unfold State.status
  cases s.fault <;> cases s.halted <;> simp

/-- A fault taken twice: the host's answers come before or after it alike. -/
theorem raise_hostAnswers (s : State) (f : Fault) (as : List InAnswer) :
    (s.raise f).hostAnswers as = (s.hostAnswers as).raise f := rfl

end Sys2Proof.Machine
end

