-- ==== Sys2Proof/Laws/Memory.lean ====
section
/-! SUPPORT. What the memory primitives do, said once: read after write, the frame of a write, the length, and that every
memory operation keeps `Memory.wf`. -/

namespace Sys2Proof.Machine

theorem wordsInRange_iff {W : Nat} {ws : List Int} :
    wordsInRange W ws = true ↔ ∀ v ∈ ws, Word.InRange W v := by
  simp only [wordsInRange, List.all_eq_true, decide_eq_true_eq]

/-! ### `Memory.read` and `Memory.write` -/

@[simp] theorem Memory.read_natCast (m : Memory) (a : Nat) : Memory.read m (a : Int) = m[a]? := by
  simp [Memory.read]

theorem Memory.read_eq_some_iff {m : Memory} {a : Int} {v : Int} :
    Memory.read m a = some v ↔ 0 ≤ a ∧ m[a.toNat]? = some v := by
  simp [Memory.read]

theorem Memory.read_eq_none_iff {m : Memory} {a : Int} :
    Memory.read m a = none ↔ ¬(0 ≤ a ∧ a < m.length) := by
  unfold Memory.read
  split
  · simp only [List.getElem?_eq_none_iff]; omega
  · simp; omega

theorem Memory.write_eq_some_iff {m m' : Memory} {a : Int} {v : Int} :
    Memory.write m a v = some m' ↔ (0 ≤ a ∧ a < m.length) ∧ m' = m.set a.toNat v := by
  unfold Memory.write
  split
  · simp only [Option.some.injEq, eq_comm (a := m')]
    constructor
    · exact fun h => ⟨by omega, h⟩
    · exact fun h => h.2
  · simp only [reduceCtorEq, false_iff]
    rintro ⟨h, -⟩
    omega

theorem Memory.write_eq_none_iff {m : Memory} {a : Int} {v : Int} :
    Memory.write m a v = none ↔ ¬(0 ≤ a ∧ a < m.length) := by
  unfold Memory.write
  split <;> simp <;> omega

theorem Memory.write_length {m m' : Memory} {a : Int} {v : Int} (h : Memory.write m a v = some m') :
    m'.length = m.length := by
  obtain ⟨-, rfl⟩ := Memory.write_eq_some_iff.1 h
  simp

theorem Memory.read_write_same {m m' : Memory} {a : Int} {v : Int} (h : Memory.write m a v = some m') :
    Memory.read m' a = some v := by
  obtain ⟨⟨h0, hlt⟩, rfl⟩ := Memory.write_eq_some_iff.1 h
  have : a.toNat < m.length := by omega
  simp [Memory.read, h0, this]

theorem Memory.read_write_other {m m' : Memory} {a b : Int} {v : Int} (h : Memory.write m a v = some m')
    (hb : b ≠ a) : Memory.read m' b = Memory.read m b := by
  obtain ⟨⟨h0, hlt⟩, rfl⟩ := Memory.write_eq_some_iff.1 h
  unfold Memory.read
  split
  · rw [List.getElem?_set_ne]; omega
  · rfl

/-! ### `Memory.wf` -/

theorem Memory.wf_write {W : Nat} {m m' : Memory} {a : Int} {v : Int} (hm : Memory.wf W m = true)
    (hv : Word.InRange W v) (h : Memory.write m a v = some m') : Memory.wf W m' = true := by
  obtain ⟨-, rfl⟩ := Memory.write_eq_some_iff.1 h
  simp only [Memory.wf, wordsInRange_iff] at hm ⊢
  intro u hu
  rcases List.mem_or_eq_of_mem_set hu with hu | rfl
  · exact hm u hu
  · exact hv

theorem Memory.wf_read {W : Nat} {m : Memory} {a : Int} {v : Int} (hm : Memory.wf W m = true)
    (h : Memory.read m a = some v) : Word.InRange W v := by
  simp only [Memory.wf, wordsInRange_iff] at hm
  exact hm v (List.mem_of_getElem? (Memory.read_eq_some_iff.1 h).2)

theorem Memory.wf_reset : Memory.wf State.reset.params.wordBits State.reset.mem = true := rfl

/-- Placing words of the range keeps the form: what the memory grows by is 0, a word of every width. -/
theorem Memory.wf_placeWords {W : Nat} {m : Memory} {a : Nat} {ws : List Int} (hm : Memory.wf W m = true)
    (hw : wordsInRange W ws = true) : Memory.wf W (placeWords m a ws) = true := by
  have hhalf : 1 ≤ Word.half W := by
    simp only [Word.half]
    exact_mod_cast Nat.one_le_two_pow
  simp only [Memory.wf, wordsInRange_iff, placeWords, List.mem_append] at hm hw ⊢
  rintro v ((hv | hv) | hv)
  · rcases List.mem_append.1 (List.mem_of_mem_take hv) with h | h
    · exact hm v h
    · obtain rfl := (List.mem_replicate.1 h).2
      constructor <;> omega
  · exact hw v hv
  · exact hm v (List.mem_of_mem_drop hv)

/-! ### `memRead` and `memWrite` (R33, R34) -/

theorem memRead_ok_iff {s : State} {a : Int} {v : Int} : memRead s a = .ok v ↔ Memory.read s.mem a = some v := by
  unfold memRead
  split <;> simp_all

theorem memRead_error_iff {s : State} {a : Int} {f : Fault} :
    memRead s a = .error f ↔ ¬(0 ≤ a ∧ a < s.mem.length) ∧ f = .bounds a s.ip := by
  unfold memRead
  split
  · rename_i h
    simp only [reduceCtorEq, false_iff]
    rintro ⟨hn, -⟩
    simp [Memory.read_eq_none_iff.2 hn] at h
  · rename_i h
    simp [Memory.read_eq_none_iff.1 h, eq_comm]

theorem memWrite_ok_iff {s t : State} {a : Int} {v : Int} :
    memWrite s a v = .ok t ↔ ∃ m, Memory.write s.mem a v = some m ∧ t = { s with mem := m } := by
  unfold memWrite
  cases h : Memory.write s.mem a v <;> simp [eq_comm]

theorem memWrite_error_iff {s : State} {a : Int} {v : Int} {f : Fault} :
    memWrite s a v = .error f ↔ ¬(0 ≤ a ∧ a < s.mem.length) ∧ f = .bounds a s.ip := by
  unfold memWrite
  split
  · rename_i h
    simp only [reduceCtorEq, false_iff]
    rintro ⟨hn, -⟩
    simp [Memory.write_eq_none_iff.2 hn] at h
  · rename_i h
    simp [Memory.write_eq_none_iff.1 h, eq_comm]

end Sys2Proof.Machine
end

