-- ==== Sys2Proof/Laws/Operands.lean ====
section
/-! SUPPORT. What the resolver, the ALU and the output port can answer, said once. -/

namespace Sys2Proof.Machine

/-! ### The resolver (R59, R60) -/

@[simp] theorem resolve_immediate (s : State) (slot : Nat) : resolve s slot .immediate = .ok (slot : Int) := rfl

theorem resolve_position_ok_iff {s : State} {slot : Nat} {d : Int} :
    resolve s slot .position = .ok d ↔ s.mem[slot]? = some d := by
  simp [resolve, memRead_ok_iff]

theorem resolve_error {s : State} {slot : Nat} {m : Mode} {f : Fault} (h : resolve s slot m = .error f) :
    m = .position ∧ s.mem.length ≤ slot ∧ f = .bounds slot s.ip := by
  cases m with
  | immediate => simp at h
  | position =>
    obtain ⟨hn, rfl⟩ := memRead_error_iff.1 h
    exact ⟨rfl, by omega, rfl⟩

theorem readOperand_ok_iff {s : State} {slot : Nat} {m : Mode} {v : Int} :
    readOperand s slot m = .ok v ↔ ∃ a, resolve s slot m = .ok a ∧ Memory.read s.mem a = some v := by
  unfold readOperand
  cases resolve s slot m <;> simp [memRead_ok_iff]

/-- R96: reading an operand can only raise `Bounds`, with the address of the instruction. -/
theorem readOperand_error {s : State} {slot : Nat} {m : Mode} {f : Fault} (h : readOperand s slot m = .error f) :
    ∃ i, ¬(0 ≤ i ∧ i < (s.mem.length : Int)) ∧ f = .bounds i s.ip := by
  unfold readOperand at h
  split at h
  · exact ⟨_, memRead_error_iff.1 h⟩
  · rename_i g hg
    obtain ⟨-, hl, rfl⟩ := resolve_error hg
    obtain rfl : Fault.bounds slot s.ip = f := by simpa using h
    exact ⟨slot, by omega, rfl⟩

theorem resolveDst_ok {s : State} {slot : Nat} {m : Mode} {d : Int} (h : resolveDst s slot m = .ok d) :
    resolve s slot m = .ok d := by
  unfold resolveDst at h
  split at h
  · cases h
  · exact h

/-- R60, R96, R100: resolving a destination can only raise `ImmediateDestination` or `Bounds` on the slot. -/
theorem resolveDst_error {s : State} {slot : Nat} {m : Mode} {f : Fault} (h : resolveDst s slot m = .error f) :
    (m = .immediate ∧ s.params.immDst = .fault ∧ f = .immediateDestination slot s.ip) ∨
      (m = .position ∧ s.mem.length ≤ slot ∧ f = .bounds slot s.ip) := by
  unfold resolveDst at h
  split at h
  · rename_i hp
    left
    exact ⟨rfl, hp, by simpa [eq_comm] using h⟩
  · exact .inr (resolve_error h)

/-! ### The ALU (R75, R76) -/

theorem narrow_of_inRange {op : AluOp} {s : State} {a b : Int}
    (h : Word.InRange s.params.wordBits (op.exact a b)) : narrow op s a b = .ok (op.exact a b) :=
  if_pos h

theorem narrow_of_overflow_fault {op : AluOp} {s : State} {a b : Int}
    (h : ¬Word.InRange s.params.wordBits (op.exact a b)) (hf : s.params.overflow = .fault) :
    narrow op s a b = .error (.overflow op a b s.ip) := by
  simp only [narrow, if_neg h, hf]

theorem narrow_of_overflow_wrap {op : AluOp} {s : State} {a b : Int}
    (h : ¬Word.InRange s.params.wordBits (op.exact a b)) (hw : s.params.overflow = .wrap) :
    narrow op s a b = .ok (wrapWord s.params.wordBits (op.exact a b)) := by
  simp only [narrow, if_neg h, hw]

theorem narrow_ok {op : AluOp} {s : State} {a b r : Int} (h : narrow op s a b = .ok r) :
    (Word.InRange s.params.wordBits (op.exact a b) ∧ r = op.exact a b) ∨
      (¬Word.InRange s.params.wordBits (op.exact a b) ∧ s.params.overflow = .wrap ∧
        r = wrapWord s.params.wordBits (op.exact a b)) := by
  unfold narrow at h
  split at h
  · rename_i hr
    exact .inl ⟨hr, by simpa [eq_comm] using h⟩
  · rename_i hr
    split at h
    · cases h
    · rename_i hw
      exact .inr ⟨hr, hw, by simpa [eq_comm] using h⟩

theorem narrow_error {op : AluOp} {s : State} {a b : Int} {f : Fault} (h : narrow op s a b = .error f) :
    ¬Word.InRange s.params.wordBits (op.exact a b) ∧ s.params.overflow = .fault ∧ f = .overflow op a b s.ip := by
  unfold narrow at h
  split at h
  · cases h
  · rename_i hr
    split at h
    · rename_i hf
      exact ⟨hr, hf, by simpa [eq_comm] using h⟩
    · cases h

/-! ### The output port (R27) -/

theorem outAnswer_ok_iff {s : State} : s.outAnswer = .ok ↔ s.OutputOk := by
  unfold State.outAnswer
  split <;> simp_all [State.OutputOk]

theorem outAnswer_ioError_iff {s : State} : s.outAnswer = .ioError ↔ s.outLeft = some 0 := by
  unfold State.outAnswer
  split <;> simp_all

/-- Whatever the answer, the event is sent. -/
theorem outPort_eq_iff {s t : State} {e : OutEvent} {a : OutAnswer} :
    outPort s e = (a, t) ↔ s.outAnswer = a ∧ t = s.sent e := by
  simp [outPort, eq_comm]

theorem outPort_ok {s t : State} {e : OutEvent} (h : outPort s e = (.ok, t)) : s.OutputOk ∧ t = s.sent e :=
  (outPort_eq_iff.1 h).imp_left outAnswer_ok_iff.1

theorem outPort_ioError {s t : State} {e : OutEvent} (h : outPort s e = (.ioError, t)) :
    s.outLeft = some 0 ∧ t = s.sent e :=
  (outPort_eq_iff.1 h).imp_left outAnswer_ioError_iff.1

theorem outPort_of_ok {s : State} (h : s.OutputOk) (e : OutEvent) : outPort s e = (.ok, s.sent e) :=
  outPort_eq_iff.2 ⟨outAnswer_ok_iff.2 h, rfl⟩

theorem outPort_of_ioError {s : State} (h : s.outLeft = some 0) (e : OutEvent) : outPort s e = (.ioError, s.sent e) :=
  outPort_eq_iff.2 ⟨outAnswer_ioError_iff.2 h, rfl⟩

end Sys2Proof.Machine
end

