-- ==== Sys2Proof/Laws/Instructions.lean ====
section
/-! SUPPORT. What each meaning, and one step, can do: one inversion lemma each, which later proofs cite instead of
unfolding the meaning. -/

namespace Sys2Proof.Machine

/-! ### ADD and MUL -/

/-- R77, R78, without a fault: both sources, the destination, the ALU's word and the one write. -/
theorem binaryOp_ok {alu : State → Int → Int → Except Fault Int} {m1 m2 m3 : Mode} {s t : State}
    (h : binaryOp alu m1 m2 m3 s = .ok t) :
    ∃ a b d r m, readOperand s (s.slot 1) m1 = .ok a ∧ readOperand s (s.slot 2) m2 = .ok b ∧
      resolveDst s (s.slot 3) m3 = .ok d ∧ alu s a b = .ok r ∧ Memory.write s.mem d r = some m ∧
      t = { s with mem := m, ip := s.ip + 4 } := by
  unfold binaryOp at h
  repeat' split at h
  all_goals first | (cases h; done) | skip
  rename_i _ a ha _ b hb _ d hd _ r hr _ u hu
  obtain ⟨m, hm, rfl⟩ := memWrite_ok_iff.1 hu
  exact ⟨a, b, d, r, m, ha, hb, hd, hr, hm, by simpa [State.advance, eq_comm] using h⟩

/-- R77, R78: the first fault in the order of the lines. -/
theorem binaryOp_error {alu : State → Int → Int → Except Fault Int} {m1 m2 m3 : Mode} {s : State} {f : Fault}
    (h : binaryOp alu m1 m2 m3 s = .error f) :
    readOperand s (s.slot 1) m1 = .error f ∨ readOperand s (s.slot 2) m2 = .error f ∨
      resolveDst s (s.slot 3) m3 = .error f ∨ (∃ a b, alu s a b = .error f) ∨
      ∃ d r, memWrite s d r = .error f := by
  unfold binaryOp at h
  repeat' split at h
  all_goals first | (cases h; done) | skip
  all_goals
    rename_i hf
    obtain rfl := Except.error.inj h
  · exact .inl hf
  · exact .inr (.inl hf)
  · exact .inr (.inr (.inl hf))
  · exact .inr (.inr (.inr (.inl ⟨_, _, hf⟩)))
  · exact .inr (.inr (.inr (.inr ⟨_, _, hf⟩)))

theorem complete_next {s t : State} {x : Except Fault State} (h : s.complete x = .next t) :
    x = .ok t ∨ ∃ f, x = .error f ∧ t = s.raise f := by
  cases x with
  | ok u => simp_all [State.complete]
  | error f => simp_all [State.complete, eq_comm]

/-- ADD and MUL are one shape over the ALU's operation. -/
theorem exec_aluInstr (op : AluOp) (m1 m2 m3 : Mode) (s : State) :
    exec (op.instr m1 m2 m3) s = s.complete (binaryOp (narrow op) m1 m2 m3 s) := by
  cases op <;> rfl

theorem ofOutput_iff {f : Fault} : f.ofOutput = true ↔ f = .ioError .output f.ip := by
  unfold Fault.ofOutput
  split <;> simp_all [Fault.ip]

theorem resolveDst_error_fault {s : State} {slot : Nat} {m : Mode} {f : Fault} (h : resolveDst s slot m = .error f) :
    f.ip = s.ip ∧ f.ofOutput = false := by
  rcases resolveDst_error h with ⟨-, -, rfl⟩ | ⟨-, -, rfl⟩ <;> exact ⟨rfl, rfl⟩

/-- R77, R78: ADD and MUL take a fault of their own address, or store the ALU's word at the destination. -/
theorem exec_aluInstr_next {op : AluOp} {m1 m2 m3 : Mode} {s t : State} (h : exec (op.instr m1 m2 m3) s = .next t) :
    (∃ f, (f.ip = s.ip ∧ f.ofOutput = false) ∧ t = s.raise f) ∨
      ∃ a b d r m, readOperand s (s.slot 1) m1 = .ok a ∧ readOperand s (s.slot 2) m2 = .ok b ∧
        resolveDst s (s.slot 3) m3 = .ok d ∧ narrow op s a b = .ok r ∧ Memory.write s.mem d r = some m ∧
        t = { s with mem := m, ip := s.ip + 4 } := by
  rw [exec_aluInstr] at h
  rcases complete_next h with h | ⟨f, hf, rfl⟩
  · exact .inr (binaryOp_ok h)
  · refine .inl ⟨f, ?_, rfl⟩
    rcases binaryOp_error hf with h | h | h | ⟨a, b, h⟩ | ⟨d, r, h⟩
    · obtain ⟨i, -, rfl⟩ := readOperand_error h
      exact ⟨rfl, rfl⟩
    · obtain ⟨i, -, rfl⟩ := readOperand_error h
      exact ⟨rfl, rfl⟩
    · exact resolveDst_error_fault h
    · rw [(narrow_error h).2.2]
      exact ⟨rfl, rfl⟩
    · rw [(memWrite_error_iff.1 h).2]
      exact ⟨rfl, rfl⟩

/-! ### IN -/

theorem promptAndRequest_ok {s t : State} (h : promptAndRequest s = (.ok, t)) :
    (s.waiting = true ∧ t = s) ∨ (s.waiting = false ∧ s.OutputOk ∧ t = (s.sent .prompt).request) := by
  unfold promptAndRequest at h
  split at h
  · rename_i hw
    exact .inl ⟨hw, by simpa [eq_comm] using h⟩
  · rename_i hw
    split at h
    · rename_i hp
      obtain ⟨ho, rfl⟩ := outPort_ok hp
      exact .inr ⟨by simpa using hw, ho, by simpa [eq_comm] using h⟩
    · cases h

theorem promptAndRequest_ioError {s t : State} (h : promptAndRequest s = (.ioError, t)) :
    s.waiting = false ∧ s.outLeft = some 0 ∧ t = s.sent .prompt := by
  unfold promptAndRequest at h
  split at h
  · cases h
  · rename_i hw
    split at h
    · cases h
    · rename_i hp
      obtain ⟨ho, rfl⟩ := outPort_ioError hp
      exact ⟨by simpa using hw, ho, by simpa [eq_comm] using h⟩

theorem not_promptFailed_of_fault_none {s : State} (h : s.fault = none) : ¬s.PromptFailed := by
  simp [State.PromptFailed, h]

theorem receive_nil {d : Int} {s : State} (h : s.inputs = []) : receive d s = s := by
  simp only [receive, h]

theorem receive_ioError {d : Int} {s : State} {rest : List InAnswer} (h : s.inputs = .ioError :: rest) :
    receive d s = (s.takeInput rest).raise (.ioError .input s.ip) := by
  rw [receive, h]
  rfl

theorem receive_formatError {d : Int} {s : State} {line : Text} {rest : List InAnswer}
    (h : s.inputs = .formatError line :: rest) :
    receive d s = (s.takeInput rest).raise (.inputFormat line s.ip) := by
  rw [receive, h]
  rfl

theorem receive_value_outside {d v : Int} {s : State} {rest : List InAnswer} (h : s.inputs = .value v :: rest)
    (hd : ¬(0 ≤ d ∧ d < s.mem.length)) : receive d s = (s.takeInput rest).raise (.bounds d s.ip) := by
  have hw : memWrite (s.takeInput rest) d v = .error (.bounds d s.ip) := memWrite_error_iff.2 ⟨hd, rfl⟩
  rw [receive, h]
  simp only [acceptAnswer, storeInput, hw]

theorem receive_value {d v : Int} {s : State} {rest : List InAnswer} (h : s.inputs = .value v :: rest)
    (hd : 0 ≤ d ∧ d < s.mem.length) :
    receive d s =
      { s with mem := s.mem.set d.toNat v, ip := s.ip + 2, waiting := false, inputs := rest } := by
  have hw : memWrite (s.takeInput rest) d v = .ok { s.takeInput rest with mem := s.mem.set d.toNat v } :=
    memWrite_ok_iff.2 ⟨_, Memory.write_eq_some_iff.2 ⟨hd, rfl⟩, rfl⟩
  rw [receive, h]
  simp only [acceptAnswer, storeInput, hw]
  rfl

/-- R80, `case resp of`: no answer, a stored value, or a fault. -/
theorem receive_cases (d : Int) (s : State) :
    (s.inputs = [] ∧ receive d s = s) ∨
      (∃ v rest m, s.inputs = .value v :: rest ∧ Memory.write s.mem d v = some m ∧
        receive d s = { s with mem := m, ip := s.ip + 2, waiting := false, inputs := rest }) ∨
      (∃ a rest f, s.inputs = a :: rest ∧ (f.ip = s.ip ∧ f.ofOutput = false) ∧ receive d s = (s.takeInput rest).raise f) := by
  unfold receive
  split
  · rename_i h
    exact .inl ⟨h, rfl⟩
  · rename_i a rest h
    right
    cases a with
    | formatError line => exact .inr ⟨_, rest, _, h, ⟨rfl, rfl⟩, rfl⟩
    | ioError => exact .inr ⟨_, rest, _, h, ⟨rfl, rfl⟩, rfl⟩
    | value v =>
      simp only [acceptAnswer, storeInput]
      split
      · rename_i hw
        obtain ⟨m, hm, rfl⟩ := memWrite_ok_iff.1 hw
        exact .inl ⟨v, rest, m, h, hm, rfl⟩
      · rename_i hw
        obtain ⟨-, rfl⟩ := memWrite_error_iff.1 hw
        exact .inr ⟨_, rest, _, h, ⟨rfl, rfl⟩, rfl⟩

theorem execIn_next {m1 : Mode} {s t : State} (h : execIn m1 s = .next t) :
    (∃ f, resolveDst s (s.slot 1) m1 = .error f ∧ t = s.raise f) ∨
      ∃ d, resolveDst s (s.slot 1) m1 = .ok d ∧
        ((s.waiting = false ∧ s.outLeft = some 0 ∧ t = (s.sent .prompt).raise (.ioError .output s.ip)) ∨
          ∃ u, promptAndRequest s = (.ok, u) ∧ t = receive d u) := by
  unfold execIn at h
  split at h
  · rename_i f hf
    exact .inl ⟨f, hf, by simpa [eq_comm] using h⟩
  · rename_i d hd
    split at h
    · rename_i u hu
      obtain ⟨hw, ho, rfl⟩ := promptAndRequest_ioError hu
      exact .inr ⟨d, hd, .inl ⟨hw, ho, by simpa [eq_comm] using h⟩⟩
    · rename_i u hu
      exact .inr ⟨d, hd, .inr ⟨u, hu, by simpa [eq_comm] using h⟩⟩

/-! ### OUT -/

theorem execOut_next {m1 : Mode} {s t : State} (h : execOut m1 s = .next t) :
    (∃ f, readOperand s (s.slot 1) m1 = .error f ∧ t = s.raise f) ∨
      ∃ v, readOperand s (s.slot 1) m1 = .ok v ∧
        ((s.outLeft = some 0 ∧ t = (s.sent (.value v)).raise (.ioError .output s.ip)) ∨
          (s.OutputOk ∧ t = (s.sent (.value v)).advance 2)) := by
  unfold execOut at h
  split at h
  · rename_i f hf
    exact .inl ⟨f, hf, by simpa [eq_comm] using h⟩
  · rename_i v hv
    split at h
    · rename_i u hu
      obtain ⟨ho, rfl⟩ := outPort_ioError hu
      exact .inr ⟨v, hv, .inl ⟨ho, by simpa [eq_comm] using h⟩⟩
    · rename_i u hu
      obtain ⟨ho, rfl⟩ := outPort_ok hu
      exact .inr ⟨v, hv, .inr ⟨ho, by simpa [eq_comm] using h⟩⟩

/-! ### One step -/

theorem decodeAt_error {s : State} {w : Int} {f : Fault} (h : decodeAt s w = .error f) :
    ∃ e, decodeWord w = .error e ∧ f = DecodeError.toFault s.ip e := by
  unfold decodeAt at h
  split at h
  · cases h
  · rename_i e he
    exact ⟨e, he, by simpa [eq_comm] using h⟩

theorem decodeAt_ok_iff {s : State} {w : Int} {i : Instr} : decodeAt s w = .ok i ↔ decodeWord w = .ok i := by
  unfold decodeAt
  split <;> simp_all

theorem fetch_ok_iff {s : State} {i : Instr} :
    fetch s = .ok i ↔ ∃ w, s.mem[s.ip]? = some w ∧ decodeWord w = .ok i := by
  unfold fetch
  split
  · rename_i w hw
    simp only [memRead_ok_iff, Memory.read_natCast] at hw
    simp [hw, decodeAt_ok_iff]
  · rename_i hw
    have hn : s.mem.length ≤ s.ip := by
      have := (memRead_error_iff.1 hw).1
      omega
    simp [List.getElem?_eq_none hn]

/-- R102: the fault of a fetch or a decode records the address fetched from. -/
theorem fetch_error_fault {s : State} {f : Fault} (h : fetch s = .error f) : f.ip = s.ip ∧ f.ofOutput = false := by
  unfold fetch at h
  split at h
  · obtain ⟨e, -, rfl⟩ := decodeAt_error h
    cases e <;> exact ⟨rfl, rfl⟩
  · rename_i hf
    obtain rfl := Except.error.inj h
    rw [(memRead_error_iff.1 hf).2]
    exact ⟨rfl, rfl⟩

/-- R66, R67: a step does nothing, takes the fault of its fetch or decode, or runs the instruction it decoded. -/
theorem step_next {s t : State} (h : step s = .next t) :
    (¬s.Running ∧ t = s) ∨ (s.Running ∧ ∃ f, fetch s = .error f ∧ t = s.raise f) ∨
      (s.Running ∧ ∃ i, fetch s = .ok i ∧ exec i s = .next t) := by
  unfold step at h
  split at h
  · rename_i hs
    rw [status_running] at hs
    split at h
    · rename_i i hi
      exact .inr (.inr ⟨hs, i, hi, h⟩)
    · rename_i f hf
      exact .inr (.inl ⟨hs, f, hf, by simpa [eq_comm] using h⟩)
  all_goals
    rename_i hs
    left
    refine ⟨fun hr => ?_, by simpa [noStepEnabled, eq_comm] using h⟩
    simp [(status_running s).2 hr] at hs

/-- One step of a running machine whole: a fault of its own address that no port event made, one of the four shapes of effect, or a fault taken
after an event that the output port answers `IoError`. -/
theorem step_cases {s t : State} (hr : s.Running) (h : step s = .next t) :
    (∃ f, (f.ip = s.ip ∧ f.ofOutput = false) ∧ t = s.raise f) ∨
    (∃ (op : AluOp) (m1 m2 m3 : Mode) (a b d r : Int) (m : Memory), fetch s = .ok (op.instr m1 m2 m3) ∧
      readOperand s (s.slot 1) m1 = .ok a ∧ readOperand s (s.slot 2) m2 = .ok b ∧
      resolveDst s (s.slot 3) m3 = .ok d ∧ narrow op s a b = .ok r ∧ Memory.write s.mem d r = some m ∧
      t = { s with mem := m, ip := s.ip + 4 }) ∨
    (∃ m1 m2 m3 d u, fetch s = .ok (.inp m1 m2 m3) ∧ resolveDst s (s.slot 1) m1 = .ok d ∧
      promptAndRequest s = (.ok, u) ∧ t = receive d u) ∨
    (∃ m1 m2 m3 v, fetch s = .ok (.out m1 m2 m3) ∧ readOperand s (s.slot 1) m1 = .ok v ∧ s.OutputOk ∧
      t = (s.sent (.value v)).advance 2) ∨
    (∃ m1 m2 m3, fetch s = .ok (.halt m1 m2 m3) ∧ t = s.setHalted) ∨
    (∃ e, s.outLeft = some 0 ∧ t = (s.sent e).raise (.ioError .output s.ip) ∧
      ((∃ m1 m2 m3 d, e = .prompt ∧ s.waiting = false ∧ fetch s = .ok (.inp m1 m2 m3) ∧
          resolveDst s (s.slot 1) m1 = .ok d) ∨
        ∃ m1 m2 m3 v, e = .value v ∧ fetch s = .ok (.out m1 m2 m3) ∧ readOperand s (s.slot 1) m1 = .ok v)) := by
  rcases step_next h with ⟨hn, -⟩ | ⟨-, f, hf, rfl⟩ | ⟨-, i, hi, hx⟩
  · exact absurd hr hn
  · exact .inl ⟨f, fetch_error_fault hf, rfl⟩
  · cases i with
    | add m1 m2 m3 =>
      rcases exec_aluInstr_next (op := .add) hx with h | ⟨a, b, d, r, m, h⟩
      · exact .inl h
      · exact .inr (.inl ⟨.add, m1, m2, m3, a, b, d, r, m, hi, h⟩)
    | mul m1 m2 m3 =>
      rcases exec_aluInstr_next (op := .mul) hx with h | ⟨a, b, d, r, m, h⟩
      · exact .inl h
      · exact .inr (.inl ⟨.mul, m1, m2, m3, a, b, d, r, m, hi, h⟩)
    | inp m1 m2 m3 =>
      rcases execIn_next hx with ⟨f, hf, rfl⟩ | ⟨d, hd, ⟨hw, ho, rfl⟩ | ⟨u, hu, rfl⟩⟩
      · exact .inl ⟨f, resolveDst_error_fault hf, rfl⟩
      · exact .inr (.inr (.inr (.inr (.inr ⟨_, ho, rfl, .inl ⟨m1, m2, m3, d, rfl, hw, hi, hd⟩⟩))))
      · exact .inr (.inr (.inl ⟨m1, m2, m3, d, u, hi, hd, hu, rfl⟩))
    | out m1 m2 m3 =>
      rcases execOut_next hx with ⟨f, hf, rfl⟩ | ⟨v, hv, ⟨ho, rfl⟩ | ⟨ho, rfl⟩⟩
      · obtain ⟨i, -, rfl⟩ := readOperand_error hf
        exact .inl ⟨_, ⟨rfl, rfl⟩, rfl⟩
      · exact .inr (.inr (.inr (.inr (.inr ⟨_, ho, rfl, .inr ⟨m1, m2, m3, v, rfl, hi, hv⟩⟩))))
      · exact .inr (.inr (.inr (.inl ⟨m1, m2, m3, v, hi, hv, ho, rfl⟩)))
    | halt m1 m2 m3 =>
      obtain rfl := Host.Outcome.next.inj hx
      exact .inr (.inr (.inr (.inr (.inl ⟨m1, m2, m3, hi, rfl⟩))))

theorem step_of_running {s : State} (h : s.Running) :
    step s = match fetch s with
      | .ok i => exec i s
      | .error f => .next (s.raise f) := by
  cases hf : fetch s <;> simp [step, (status_running s).2 h, hf]

theorem step_of_not_running {s : State} (h : ¬s.Running) : step s = .next s := by
  unfold step
  split
  · rename_i hs
    exact absurd ((status_running s).1 hs) h
  · rfl
  · rfl

end Sys2Proof.Machine
end

