-- ==== Sys2Proof/Laws/PerInstr.lean ====
section
/-! SUPPORT. Statements made per instruction: each instruction's word fits the narrowest machine R6 allows. -/

namespace Sys2Proof.Laws.WordFits

/-- R6: the instruction's word lies in the range of every width of at least 15. -/
def Statement (i : Instr) : Prop := ∀ W, 15 ≤ W → Word.InRange W (encodeWord i)

theorem half_ge {W : Nat} (h : 15 ≤ W) : 16384 ≤ Word.half W := by
  have : 2 ^ 14 ≤ 2 ^ (W - 1) := Nat.pow_le_pow_right (by omega) (by omega)
  simp only [Word.half]
  omega

theorem mode_le (m : Mode) : 0 ≤ m.digit ∧ m.digit ≤ 1 := by cases m <;> simp [Mode.digit]

theorem of_opcode {i : Instr} (h0 : 0 ≤ i.opcode) (h : i.opcode ≤ 99) : Statement i := by
  intro W hW
  have := half_ge hW
  have h1 := mode_le i.modes.1
  have h2 := mode_le i.modes.2.1
  have h3 := mode_le i.modes.2.2
  unfold encodeWord
  constructor <;> omega

theorem add (m1 m2 m3 : Mode) : Statement (.add m1 m2 m3) := of_opcode (by simp [Instr.opcode]) (by simp [Instr.opcode])

theorem mul (m1 m2 m3 : Mode) : Statement (.mul m1 m2 m3) := of_opcode (by simp [Instr.opcode]) (by simp [Instr.opcode])

theorem inp (m1 m2 m3 : Mode) : Statement (.inp m1 m2 m3) := of_opcode (by simp [Instr.opcode]) (by simp [Instr.opcode])

theorem out (m1 m2 m3 : Mode) : Statement (.out m1 m2 m3) := of_opcode (by simp [Instr.opcode]) (by simp [Instr.opcode])

theorem halt (m1 m2 m3 : Mode) : Statement (.halt m1 m2 m3) := of_opcode (by simp [Instr.opcode]) (by simp [Instr.opcode])

end Sys2Proof.Laws.WordFits
end

