-- ==== Sys2Proof/Laws/Run.lean ====
section
/-! SUPPORT. The run loop's induction, packaged once: what every step keeps, every run keeps; and what a run starts
from. -/

namespace Sys2Proof.Machine

/-- R66, R71: a run from a halted or faulted state stays there. -/
theorem runFor_of_not_running {s : State} (h : ¬s.Running) (n : Nat) : runFor n s = s := by
  cases n with
  | zero => rfl
  | succ n =>
    unfold runFor
    split
    · rfl
    · rfl
    · rename_i hs
      exact absurd ((status_running s).1 hs) h

/-- One turn of the loop is one step. -/
theorem runFor_succ {s t : State} (h : step s = .next t) (n : Nat) : runFor (n + 1) s = runFor n t := by
  by_cases hr : s.Running
  · conv_lhs => unfold runFor
    rw [(status_running s).2 hr]
    simp only [h]
  · rw [step_of_not_running hr] at h
    obtain rfl := Host.Outcome.next.inj h
    rw [runFor_of_not_running hr, runFor_of_not_running hr]

/-- R71: what every step keeps, every run keeps. -/
theorem runFor_induction {P : State → Prop} (hP : ∀ s t, P s → step s = .next t → P t) (n : Nat) :
    ∀ s, P s → P (runFor n s) := by
  induction n with
  | zero => exact fun s h => h
  | succ n ih =>
    intro s h
    unfold runFor
    split
    · exact h
    · exact h
    · split
      · exact ih _ (hP _ _ h ‹_›)
      · exact h
      · exact h

/-! ### The start of a run (R111, R116, R124) -/

theorem construct_next_iff {p : Params} {image : List Int} {s : State} :
    construct p image = .next s ↔
      p.wf = true ∧ wordsInRange p.wordBits image = true ∧ s = State.constructed p image := by
  unfold construct
  cases p.wf <;> cases wordsInRange p.wordBits image <;> simp [eq_comm]

theorem startRun_next_iff {p : Params} {image : List Int} {answers : List InAnswer} {left : Option Nat} {s : State} :
    startRun p image answers left = .next s ↔
      p.wf = true ∧ wordsInRange p.wordBits image = true ∧ s = State.launched p image answers left := by
  unfold startRun construct
  cases p.wf <;> cases wordsInRange p.wordBits image <;> simp [State.launched, eq_comm]

end Sys2Proof.Machine
end

