-- ==== Sys2Proof/Tests/Slice0.lean ====
section
/-! SUPPORT. The model's own tests.  Every expected result is the spec's: a vector of 95_test_vectors.md (named in the
comment) or worked by hand from a rule.  After them, for each statement with hypotheses, a state and operands that meet
them all, clause by clause, at the ends of their ranges. -/

namespace Sys2Proof.Tests

open Sys2Proof.Machine

/-- The parameters of 95_test_vectors.md: W = 32, `fault`, `permit`. -/
def p32 : Params := ⟨32, .fault, .permit⟩

def p32wrap : Params := ⟨32, .wrap, .permit⟩

/-- IMM_DST_POLICY = fault. -/
def p32strict : Params := ⟨32, .fault, .fault⟩

/-- R124: a run's start, with an output port that never fails. -/
def launch (p : Params) (image : List Int) (answers : List InAnswer) : State := State.launched p image answers none

/-- The next state of an outcome. -/
def after : Host.Outcome State Fault Refusal → Option State
  | .next s => some s
  | .fault _ => none
  | .refused _ => none

/-! ### WellFormed: each check refuses an ill-formed term -/

theorem test_params_width_14_refused : Params.wf ⟨14, .fault, .permit⟩ = false := by decide

theorem test_image_word_beyond_width_15_refused : wordsInRange 15 [99, 16384] = false := by decide

theorem test_missing_parameter_refused : Assembled.arityOk ⟨.add .position .position .position, [0, 0]⟩ = false := by
  decide

theorem test_parameter_beyond_width_15_refused : Assembled.wf 15 (asmOut ⟨.immediate, -16385⟩) = false := by decide

/-- R116: the same at construction. -/
theorem test_construct_refuses_word : construct ⟨15, .fault, .permit⟩ [16384] = .refused .imageWordOutOfRange := rfl

/-- R6 -/
theorem test_construct_refuses_width : construct ⟨14, .fault, .permit⟩ [99] = .refused .wordBitsBelow15 := rfl

/-! ### Decode: words written out digit by digit (R48, R52: CBA, then the opcode) -/

/-- 1 1 1 01 -/
theorem test_decode_add_11101 : decodeWord 11101 = .ok (.add .immediate .immediate .immediate) := by decide

/-- 0 1 0 02: vector W5 -/
theorem test_decode_mul_1002 : decodeWord 1002 = .ok (.mul .position .immediate .position) := by decide

/-- 1 0 0 03 -/
theorem test_decode_in_10003 : decodeWord 10003 = .ok (.inp .position .position .immediate) := by decide

/-- 0 0 1 04 -/
theorem test_decode_out_104 : decodeWord 104 = .ok (.out .immediate .position .position) := by decide

/-- 1 0 0 99 -/
theorem test_decode_halt_10099 : decodeWord 10099 = .ok (.halt .position .position .immediate) := by decide

/-- 95_test_vectors.md section 2.1: the rejected words. -/
theorem test_decode_rejects :
    decodeWord 0 = .error (.unknownOpcode 0 0) ∧ decodeWord 98 = .error (.unknownOpcode 98 98) ∧
      decodeWord 1901 = .error (.unknownMode 1901 1 9) ∧ decodeWord 2001 = .error (.unknownMode 2001 2 2) ∧
      decodeWord 20099 = .error (.unknownMode 20099 3 2) ∧ decodeWord 205 = .error (.unknownOpcode 205 5) ∧
      decodeWord (-99) = .error (.unknownOpcode (-99) (-99)) ∧
      decodeWord (-201) = .error (.unknownOpcode (-201) (-1)) ∧
      decodeWord 1234599 = .error (.unknownMode 1234599 1 5) := by decide

/-- R64's example: `MUL [4], #3, [4]` is `1002, 4, 3, 4`. -/
theorem test_assemble_mul :
    encode (asmMul ⟨.position, 4⟩ ⟨.immediate, 3⟩ ⟨.position, 4⟩) = [1002, 4, 3, 4] := by decide

/-- The placing of a table word: the next step runs it, as the first instruction after reset. -/
theorem test_withFetchWord_runs_each_row :
    [1, 2, 3, 4, 99].map (fun w => fetch (State.reset.withFetchWord 16 w)) =
      [.ok (.add .position .position .position), .ok (.mul .position .position .position),
        .ok (.inp .position .position .position), .ok (.out .position .position .position),
        .ok (.halt .position .position .position)] ∧
    decodeTableWord 16 11103 = some (.inp .immediate .immediate .immediate) := by decide

/-! ### One step of each instruction -/

/-- Section 2.3: `[1101,-2147483648,-1,5,99,0]`, W = 32, wrap. -/
theorem test_add_wraps :
    (after (step (launch p32wrap [1101, -2147483648, -1, 5, 99, 0] []))).map (fun t => (t.mem[5]?, t.ip)) =
      some (some 2147483647, 4) := by decide

/-- Section 2.3: `[1101,2147483647,1,9,99]`: the ALU comes before the bounds-checked write. -/
theorem test_add_overflow_before_bounds :
    (after (step (launch p32 [1101, 2147483647, 1, 9, 99] []))).map (fun t => (t.fault, t.ip)) =
      some (some (.overflow .add 2147483647 1 0), 0) := by decide

/-- W3: `[1002,4,3,4,33]`. -/
theorem test_mul_position_and_immediate :
    (after (step (launch p32 [1002, 4, 3, 4, 33] []))).map (fun t => (t.mem, t.ip)) =
      some ([1002, 4, 3, 4, 99], 4) := by decide

/-- Section 2.4: `[1102,-2147483648,-1,5,99,0]`, W = 32, wrap. -/
theorem test_mul_wraps :
    (after (step (launch p32wrap [1102, -2147483648, -1, 5, 99, 0] []))).map (fun t => t.mem[5]?) =
      some (some (-2147483648)) := by decide

/-- Section 2.5: `[103,0,99]`, input 7, permit: the immediate destination is the slot itself. -/
theorem test_in_writes_its_own_slot :
    (after (step (launch p32 [103, 0, 99] [.value 7]))).map (fun t => (t.mem, t.ip, t.events, t.requests)) =
      some ([103, 7, 99], 2, [.prompt], 1) := by decide

/-- Section 2.5: `[3,5,99]`: `Bounds(5)` on the write, after the prompt and after the line is consumed. -/
theorem test_in_bounds_after_prompt :
    (after (step (launch p32 [3, 5, 99] [.value 1]))).map (fun t => (t.fault, t.events, t.inputs, t.mem)) =
      some (some (.bounds 5 0), [.prompt], [], [3, 5, 99]) := by decide

/-- Section 2.6: `[1004,0,99]`: mode_1 is position, the 1 is the unused mode_2. -/
theorem test_out_ignores_unused_mode :
    (after (step (launch p32 [1004, 0, 99] []))).map (fun t => (t.events, t.ip)) = some ([.value 1004], 2) := by decide

/-- Section 2.6: `[4,-1,99]`: `Bounds(-1)`, no event. -/
theorem test_out_negative_address :
    (after (step (launch p32 [4, -1, 99] []))).map (fun t => (t.fault, t.events)) =
      some (some (.bounds (-1) 0), []) := by decide

/-- Section 2.7: `[11199]` halts at ip 0. -/
theorem test_halt_with_unused_modes :
    (after (step (launch p32 [11199] []))).map (fun t => (t.halted, t.ip, t.mem)) = some (true, 0, [11199]) := by decide

/-- Section 2.7: `[20099]` is a fault, not a halt. -/
theorem test_halt_checks_unused_modes :
    (after (step (launch p32 [20099] []))).map (fun t => (t.halted, t.fault)) =
      some (false, some (.unknownMode 20099 3 2 0)) := by decide

/-- Sections 2.5 and R27: the port fails the prompt: it has been sent, no request is made and no line consumed. -/
theorem test_in_output_port_fails :
    (after (step (State.launched p32 [3, 3, 99, 0] [.value 7] (some 0)))).map
        (fun t => (t.fault, t.events, t.requests, t.inputs)) =
      some (some (.ioError .output 0), [.prompt], 0, [.value 7]) := by decide

/-- `[104,0,99]`, the output port fails: `IoError(output)`, ip 0; R27: the value has been sent. -/
theorem test_out_output_port_fails :
    (after (step (State.launched p32 [104, 0, 99] [] (some 0)))).map (fun t => (t.fault, t.ip, t.events)) =
      some (some (.ioError .output 0), 0, [.value 0]) := by decide

/-- R29: an IN without an answer has sent its prompt and stays. -/
theorem test_in_waits :
    (after (step (launch p32 [3, 3, 99, 0] []))).map (fun t => (t.waiting, t.ip, t.events, t.requests)) =
      some (true, 0, [.prompt], 1) := by decide

/-! ### The channel text (section 2.5, R86, R87) -/

theorem test_lines :
    answerLine 32 [' ', '-', '1', '7', ' '] = .value (-17) ∧ answerLine 32 ['+', '8'] = .value 8 ∧
      answerLine 32 ['0', '0', '7'] = .value 7 ∧ answerLine 32 [] = .formatError [] ∧
      answerLine 32 ['1', ' ', '2'] = .formatError ['1', ' ', '2'] ∧
      answerLine 32 ['-', '-', '1'] = .formatError ['-', '-', '1'] ∧
      answerLine 32 ['2', '1', '4', '7', '4', '8', '3', '6', '4', '8'] =
        .formatError ['2', '1', '4', '7', '4', '8', '3', '6', '4', '8'] ∧
      answerLine 64 ['2', '1', '4', '7', '4', '8', '3', '6', '4', '8'] = .value 2147483648 := by decide

/-- R87: the text of the run `[3,0,4,0,99]` with input 42. -/
theorem test_text : renderEvents [.prompt, .value 42] = ['?', '>', ' ', '#', '>', ' ', '4', '2', '\n'] := by decide

/-! ### Witnesses: encoding -/

theorem witness_DecodeOfEncodedInstruction :
    Assembled.wf 15 (asmAdd ⟨.immediate, 16383⟩ ⟨.position, -16384⟩ ⟨.immediate, 0⟩) = true := by decide

theorem witness_LegalWordsAreExactlyTheListed :
    (99999 : Int) < 100000 ∧ (launch p32 [20099] []).Running ∧
      (launch p32 [20099] []).mem[(launch p32 [20099] []).ip]? = some 20099 ∧ ∀ i, decodeWord 20099 ≠ .ok i := by
  refine ⟨by decide, by decide, rfl, fun i h => ?_⟩
  rw [show decodeWord 20099 = .error (.unknownMode 20099 3 2) from rfl] at h
  cases h

theorem witness_NegativeWordsAreUnknownOpcodes : (-1 : Int) < 0 := by decide

theorem witness_DecoderChecksOpcodeThenModes :
    (5 : Int).tmod 100 ∉ ([1, 2, 3, 4, 99] : List Int) ∧
      ((201 : Int).tmod 100 ∈ ([1, 2, 3, 4, 99] : List Int) ∧ digit 2 201 ∉ ([0, 1] : List Int)) ∧
      ((2101 : Int).tmod 100 ∈ ([1, 2, 3, 4, 99] : List Int) ∧ digit 2 2101 ∈ ([0, 1] : List Int) ∧
        digit 3 2101 ∉ ([0, 1] : List Int)) ∧
      ((21199 : Int).tmod 100 ∈ ([1, 2, 3, 4, 99] : List Int) ∧ digit 2 21199 ∈ ([0, 1] : List Int) ∧
        digit 3 21199 ∈ ([0, 1] : List Int) ∧ digit 4 21199 ∉ ([0, 1] : List Int)) ∧
      ((11199 : Int).tmod 100 ∈ ([1, 2, 3, 4, 99] : List Int) ∧ digit 2 11199 ∈ ([0, 1] : List Int) ∧
        digit 3 11199 ∈ ([0, 1] : List Int) ∧ digit 4 11199 ∈ ([0, 1] : List Int)) := by decide

theorem witness_DecodedFieldsAreDecimalDigits :
    decodeWord 111104 = .ok (.out .immediate .immediate .immediate) ∧ (0 : Int) ≤ 0 := by decide

theorem witness_FifteenBitsHoldEveryInstructionWord : 15 ≤ 15 := by decide

/-! ### Witnesses: memory, operands, ALU -/

/-- The addresses at both ends of memory, and the first outside each. -/
theorem witness_MemoryPrimitivesReadAndWriteOneWord :
    (let s := launch p32 [4, 2, 99] []
     ((0 : Int) ≤ 0 ∧ (0 : Int) < s.mem.length) ∧ ((0 : Int) ≤ 2 ∧ (2 : Int) < s.mem.length) ∧
       ¬((0 : Int) ≤ 3 ∧ (3 : Int) < s.mem.length) ∧ ¬((0 : Int) ≤ -1 ∧ (-1 : Int) < s.mem.length)) ∧
    (2 : Int) ≠ 0 := by decide

/-- Under `permit`: a word in the last slot of memory for ADD (ip + 3 = N - 1) and for IN (ip + 1 = N - 1). -/
theorem witness_ImmediateDestinations_permit :
    (let s := launch p32 [11101, 2, 3, 0] []
     s.params.immDst = .permit ∧ Reads s (s.ip + 1) .immediate 2 ∧ Reads s (s.ip + 2) .immediate 3 ∧
       narrow .add s 2 3 = .ok 5 ∧ s.ip + 3 < s.mem.length) ∧
    (let s := launch p32 [103, 0] [.value 7]
     s.params.immDst = .permit ∧ s.outLeft ≠ some 0 ∧ s.inputs = [.value 7] ∧ s.ip + 1 < s.mem.length) :=
  ⟨⟨rfl, rfl, rfl, rfl, by decide⟩, ⟨rfl, by decide, rfl, by decide⟩⟩

theorem witness_ImmediateDestinations_fault :
    (let s := launch p32strict [11101, 2, 3] []
     s.params.immDst = .fault ∧ Reads s (s.ip + 1) .immediate 2 ∧ Reads s (s.ip + 2) .immediate 3) ∧
    (let s := launch p32strict [11101] []
     s.params.immDst = .fault ∧ ReadsOutside s (s.ip + 1) .immediate 1) ∧
    (let s := launch p32strict [11101, 2] []
     s.params.immDst = .fault ∧ Reads s (s.ip + 1) .immediate 2 ∧ ReadsOutside s (s.ip + 2) .immediate 2) ∧
    (launch p32strict [103, 0, 99] []).params.immDst = .fault :=
  ⟨⟨rfl, rfl, rfl⟩, ⟨rfl, rfl, by decide⟩, ⟨rfl, rfl, rfl, by decide⟩, rfl⟩

theorem witness_WrapIsTheCongruentWord :
    1 ≤ 1 ∧ Word.InRange 1 (-1) ∧ ((2 ^ 1 : Nat) : Int) ∣ 1 - (-1) := by decide

/-- The largest word and the first sum above it, under both OVERFLOW_MODEs; the same for a product. -/
theorem witness_AluNarrowsTheExactResult :
    (let s := launch p32 [99] []
     Word.InRange s.params.wordBits (2147483646 + 1) ∧
       (¬Word.InRange s.params.wordBits (2147483647 + 1) ∧ s.params.overflow = .fault) ∧
       Word.InRange s.params.wordBits (-2147483648 * 1) ∧
       (¬Word.InRange s.params.wordBits (-2147483648 * -1) ∧ s.params.overflow = .fault) ∧
       ((-1 : Int) < 0 ∧ (-2147483647 : Int) < 0 ∧ Word.InRange s.params.wordBits (-1 * -2147483647) ∧
         aluMul s (-1) (-2147483647) = .ok 2147483647)) ∧
    (let s := launch p32wrap [99] []
     (¬Word.InRange s.params.wordBits (2147483647 + 1) ∧ s.params.overflow = .wrap) ∧
       ¬Word.InRange s.params.wordBits (-2147483648 * -1)) := by decide

/-! ### Witnesses: the instructions -/

/-- The three `Bounds` of the operands at their first slot outside memory, and a position operand beyond it. -/
theorem witness_AddAndMul_operands :
    (let s := launch p32 [1101] []
     ReadsOutside s (s.ip + 1) .immediate 1) ∧
    (let s := launch p32 [1, 7, 0, 0, 99] []
     ReadsOutside s (s.ip + 1) .position 7) ∧
    (let s := launch p32 [1101, 1] []
     Reads s (s.ip + 1) .immediate 1 ∧ ReadsOutside s (s.ip + 2) .immediate 2) ∧
    (let s := launch p32 [1101, 1, 1] []
     Reads s (s.ip + 1) .immediate 1 ∧ Reads s (s.ip + 2) .immediate 1 ∧
       TargetFault s (s.ip + 3) .position (.bounds 3 0)) ∧
    (let s := launch p32strict [11101, 2, 3, 0, 99] []
     Reads s (s.ip + 1) .immediate 2 ∧ Reads s (s.ip + 2) .immediate 3 ∧
       TargetFault s (s.ip + 3) .immediate (.immediateDestination 3 0)) :=
  ⟨⟨rfl, by decide⟩, .inr ⟨rfl, by decide⟩, ⟨rfl, rfl, by decide⟩, ⟨rfl, rfl, by decide, rfl⟩, ⟨rfl, rfl, rfl, rfl⟩⟩

/-- The results: an overflow that faults; a destination at 0, at N - 1, at N and at -1; a wrapped sum. -/
theorem witness_AddAndMul_results :
    (let s := launch p32 [1101, 2147483647, 1, 3] []
     Reads s (s.ip + 1) .immediate 2147483647 ∧ Reads s (s.ip + 2) .immediate 1 ∧ Targets s (s.ip + 3) .position 3 ∧
       ¬Word.InRange s.params.wordBits (2147483647 + 1) ∧ s.params.overflow = .fault) ∧
    (let s := launch p32 [1, 0, 0, 0, 99] []
     Reads s (s.ip + 1) .position 1 ∧ Reads s (s.ip + 2) .position 1 ∧ Targets s (s.ip + 3) .position 0 ∧
       Word.InRange s.params.wordBits (1 + 1) ∧ (0 : Int) ≤ 0 ∧ (0 : Int) < s.mem.length) ∧
    (let s := launch p32 [1002, 4, 3, 4, 33] []
     Reads s (s.ip + 1) .position 33 ∧ Reads s (s.ip + 2) .immediate 3 ∧ Targets s (s.ip + 3) .position 4 ∧
       Word.InRange s.params.wordBits (33 * 3) ∧ (0 : Int) ≤ 4 ∧ (4 : Int) < s.mem.length) ∧
    (let s := launch p32 [1101, 1, 1, 5, 99] []
     Reads s (s.ip + 1) .immediate 1 ∧ Targets s (s.ip + 3) .position 5 ∧ ¬((0 : Int) ≤ 5 ∧ (5 : Int) < s.mem.length)) ∧
    (let s := launch p32 [1101, 1, 1, -1, 99] []
     Reads s (s.ip + 2) .immediate 1 ∧ Targets s (s.ip + 3) .position (-1) ∧
       ¬((0 : Int) ≤ -1 ∧ (-1 : Int) < s.mem.length)) ∧
    (let s := launch p32wrap [1101, -2147483648, -1, 3] []
     Reads s (s.ip + 1) .immediate (-2147483648) ∧ Reads s (s.ip + 2) .immediate (-1) ∧
       Targets s (s.ip + 3) .position 3 ∧ ¬Word.InRange s.params.wordBits (-2147483648 + -1) ∧
       s.params.overflow = .wrap) :=
  ⟨⟨rfl, rfl, rfl, by decide, rfl⟩, ⟨⟨0, rfl, rfl⟩, ⟨0, rfl, rfl⟩, rfl, by decide⟩,
    ⟨⟨4, rfl, rfl⟩, rfl, rfl, by decide⟩, ⟨rfl, rfl, by decide⟩, ⟨rfl, rfl, by decide⟩, ⟨rfl, rfl, rfl, by decide, rfl⟩⟩

/-- The machine waiting for its first input at an IN whose destination is the last word. -/
def waitingIn : State := { launch p32 [3, 3, 99, 0] [] with waiting := true, events := [.prompt], requests := 1 }

/-- IN, clause by clause: a destination slot outside memory; a prompt that fails; the wait; the three answers, stored at N - 1
and at 0 and turned away at N; and an IN in flight. -/
theorem witness_InFollowsItsRule :
    (let s := launch p32 [3] []
     TargetFault s (s.ip + 1) .position (.bounds 1 0)) ∧
    (let s := { launch p32 [3, 3, 99, 0] [] with outLeft := some 0 }
     Targets s (s.ip + 1) .position 3 ∧ s.waiting = false ∧ s.outLeft = some 0) ∧
    (let s := { launch p32 [3, 3, 99, 0] [] with outLeft := some 1 }
     Targets s (s.ip + 1) .position 3 ∧ s.waiting = false ∧ s.outLeft ≠ some 0 ∧ s.inputs = []) ∧
    (let s := launch p32 [3, 3, 99, 0] [.ioError]
     Targets s (s.ip + 1) .position 3 ∧ s.waiting = false ∧ s.outLeft ≠ some 0 ∧ s.inputs = [.ioError]) ∧
    (let s := launch p32 [3, 3, 99, 0] [.formatError ['a']]
     Targets s (s.ip + 1) .position 3 ∧ s.waiting = false ∧ s.outLeft ≠ some 0 ∧ s.inputs = [.formatError ['a']]) ∧
    (let s := launch p32 [3, 3, 99, 0] [.value 5]
     Targets s (s.ip + 1) .position 3 ∧ s.inputs = [.value 5] ∧ (0 : Int) ≤ 3 ∧ (3 : Int) < s.mem.length) ∧
    (let s := launch p32 [3, 0, 99] [.value 5]
     Targets s (s.ip + 1) .position 0 ∧ s.inputs = [.value 5] ∧ (0 : Int) ≤ 0 ∧ (0 : Int) < s.mem.length) ∧
    (let s := launch p32 [3, 3, 99] [.value 5]
     Targets s (s.ip + 1) .position 3 ∧ s.inputs = [.value 5] ∧ ¬((0 : Int) ≤ 3 ∧ (3 : Int) < s.mem.length)) ∧
    (Targets waitingIn (waitingIn.ip + 1) .position 3 ∧ waitingIn.waiting = true ∧ waitingIn.inputs = []) :=
  ⟨⟨by decide, rfl⟩, ⟨rfl, rfl, rfl⟩, ⟨rfl, rfl, by decide, rfl⟩, ⟨rfl, rfl, by decide, rfl⟩, ⟨rfl, rfl, by decide, rfl⟩,
    ⟨rfl, rfl, by decide⟩, ⟨rfl, rfl, by decide⟩, ⟨rfl, rfl, by decide⟩, ⟨rfl, rfl, rfl⟩⟩

/-- OUT: an operand at N, at -1, an output port that fails, and one with a single event left. -/
theorem witness_OutFollowsItsRule :
    (let s := launch p32 [4, 3, 99] []
     ReadsOutside s (s.ip + 1) .position 3) ∧
    (let s := launch p32 [4, -1, 99] []
     ReadsOutside s (s.ip + 1) .position (-1)) ∧
    (let s := { launch p32 [4, 2, 99] [] with outLeft := some 0 }
     Reads s (s.ip + 1) .position 99 ∧ s.outLeft = some 0) ∧
    (let s := { launch p32 [104, -5, 99] [] with outLeft := some 1 }
     Reads s (s.ip + 1) .immediate (-5) ∧ s.outLeft ≠ some 0) :=
  ⟨.inr ⟨rfl, by decide⟩, .inr ⟨rfl, by decide⟩, ⟨⟨2, rfl, rfl⟩, rfl⟩, ⟨rfl, by decide⟩⟩

theorem witness_HaltFollowsItsRule :
    (let s := launch p32 [11199] []
     s.Running ∧ s.mem[s.ip]? = some (encodeWord (.halt .immediate .immediate .immediate))) ∧
    (let s := launch p32 [20099] []
     s.Running ∧ s.mem[s.ip]? = some 20099) := by decide

/-! ### Witnesses: frames -/

/-- A step that stores (an address it stores to and one it does not), one whose fetch faults and one that faults later. -/
theorem witness_StepStoresOnlyWhereItsInstructionSays :
    (let s := launch p32 [1, 0, 0, 0, 99] []
     (∃ t, step s = .next t) ∧ fetch s = .ok (.add .position .position .position) ∧
       storeAddress s (.add .position .position .position) ≠ some 4) ∧
    (let s := launch p32 [] []
     (∃ t, step s = .next t) ∧ fetch s = .error (.bounds 0 0)) ∧
    (let s := launch p32 [1101, 1, 1, 9, 99] []
     ∃ t, step s = .next t ∧ s.fault = none ∧ t.fault ≠ none) :=
  ⟨⟨⟨_, rfl⟩, rfl, by decide⟩, ⟨⟨_, rfl⟩, rfl⟩, ⟨_, rfl, rfl, by decide⟩⟩

theorem witness_InstructionsLeaveTheRestUnchanged :
    (∃ t, exec (.add .position .position .position) (launch p32 [1, 0, 0, 0, 99] []) = .next t) ∧
      (∀ m1 m2 m3, Instr.add .position .position .position ≠ .halt m1 m2 m3) ∧
      (∀ m1 m2 m3, Instr.add .position .position .position ≠ .inp m1 m2 m3) ∧
      (∀ m1 m2 m3, Instr.add .position .position .position ≠ .out m1 m2 m3) ∧
      (∃ t, exec (.halt .position .position .position) (launch p32 [99] []) = .next t) ∧
      ∃ m1 m2 m3, Instr.halt .position .position .position = .halt m1 m2 m3 :=
  ⟨⟨_, rfl⟩, by simp, by simp, by simp, ⟨_, rfl⟩, ⟨_, _, _, rfl⟩⟩

/-- Section 2.3: `[1101,100,-1,4,0]`: the next word becomes 99. -/
theorem witness_StoredWordIsTheNextInstruction :
    let s := launch p32 [1101, 100, -1, 4, 0] []
    s.Running ∧ fetch s = .ok (AluOp.add.instr .immediate .immediate .position) ∧
      Reads s (s.ip + 1) .immediate 100 ∧ Reads s (s.ip + 2) .immediate (-1) ∧
      Targets s (s.ip + 3) .position ((s.ip : Int) + 4) ∧ s.ip + 4 < s.mem.length ∧ narrow .add s 100 (-1) = .ok 99 ∧
      decodeWord 99 = .ok (.halt .position .position .position) ∧ ∃ t, step s = .next t :=
  ⟨by decide, rfl, rfl, rfl, rfl, by decide, rfl, rfl, ⟨_, rfl⟩⟩

/-! ### Witnesses: the step -/

theorem witness_StepRunsTheDecodedInstruction :
    (let s := launch p32 [104, -5, 99] []
     s.Running ∧ s.mem[s.ip]? = some 104 ∧ decodeWord 104 = .ok (.out .immediate .position .position)) ∧
    (let s := { launch p32 [1, 0, 0, 0] [] with ip := 4 }
     s.Running ∧ s.mem.length ≤ s.ip) ∧
    (let s := launch p32 [-1] []
     s.Running ∧ s.mem[s.ip]? = some (-1) ∧ decodeWord (-1) = .error (.unknownOpcode (-1) (-1))) ∧
    (let s := launch p32 [201] []
     s.Running ∧ s.mem[s.ip]? = some 201 ∧ decodeWord 201 = .error (.unknownMode 201 1 2)) := by decide

theorem witness_HaltedAndFaultedStatesNeverChange :
    (launch p32 [99] []).setHalted.halted = true ∧ ((launch p32 [] []).raise (.bounds 0 0)).fault ≠ none := by decide

/-- A step that faults after its prompt, and the invariant's statements' hypotheses below. -/
theorem witness_FaultLeavesMemoryAndIpAsTheyAre :
    let s := launch p32 [3, 5, 99] [.value 1]
    s.Running ∧ ∃ t, step s = .next t ∧ t.fault = some (.bounds 5 0) :=
  ⟨by decide, _, rfl, rfl⟩

theorem witness_OnlyHaltSetsTheHaltedFlag :
    let s := launch p32 [99] []
    ∃ t, step s = .next t ∧ t.halted ≠ s.halted :=
  ⟨_, rfl, by decide⟩

theorem witness_MemoryKeepsTheImagesLength :
    startRun p32 [1, 0, 0, 0, 99] [.value 7] (some 0) = .next (State.launched p32 [1, 0, 0, 0, 99] [.value 7] (some 0)) ∧
      p32.wf = true := ⟨rfl, rfl⟩

theorem witness_EventsAreSentOneAtATime : ∃ t, step (launch p32 [104, -5, 99] []) = .next t := ⟨_, rfl⟩

/-! ### Witnesses: the invariant, the wait and runs -/

/-- W2's machine, with an answer it never takes. -/
theorem witness_invariant_at_launch : (launch p32 [1, 0, 0, 0, 99] [.value 2147483647]).Inv where
  params_wf := rfl
  mem_wf := by decide
  inputs_words := by
    intro a ha
    obtain rfl : a = .value 2147483647 := by simpa [launch] using ha
    decide
  events_words := by simp [launch]
  not_both := by decide
  fault_ip := by simp [launch]
  halted_at_halt := by simp [launch]
  waiting_in := by simp [launch]
  prompts_requests := ⟨fun _ => rfl, fun h => absurd h (not_promptFailed_of_fault_none rfl)⟩

/-- The hypotheses of RunStatusIsDerived, IpAdvancesByFourTwoOrNothing and EveryStepKeepsTheInvariant, with a completed step. -/
theorem witness_completed_step_under_the_invariant :
    let s := launch p32 [1, 0, 0, 0, 99] [.value 2147483647]
    s.Inv ∧ s.Running ∧ ∃ t, step s = .next t ∧ t.fault = none ∧ t.waiting = false :=
  ⟨witness_invariant_at_launch, by decide, _, rfl, rfl, rfl⟩

theorem witness_invariant_in_the_wait : waitingIn.Inv where
  params_wf := rfl
  mem_wf := by decide
  inputs_words := by simp [waitingIn, launch]
  events_words := by
    intro e he
    obtain rfl := List.mem_singleton.1 (show e ∈ [OutEvent.prompt] from he)
    trivial
  not_both := by decide
  fault_ip := by simp [waitingIn, launch]
  halted_at_halt := by simp [waitingIn, launch]
  waiting_in := fun _ => ⟨by decide, .position, .position, .position, 3, rfl, rfl⟩
  prompts_requests := ⟨fun _ => rfl, fun h => absurd h (not_promptFailed_of_fault_none rfl)⟩

/-- The wait: IpAdvancesByFourTwoOrNothing's second clause, and OnlyTheInputWaitHoldsTheMachine. -/
theorem witness_stuck_under_the_invariant :
    waitingIn.Inv ∧ waitingIn.Running ∧ waitingIn.Stuck ∧ (∃ t, step waitingIn = .next t ∧ t.waiting = true) ∧
      ∃ t, step (waitingIn.hostAnswers [.value 5]) = .next t :=
  ⟨witness_invariant_in_the_wait, by decide, by decide, ⟨_, rfl, rfl⟩, ⟨_, rfl⟩⟩

theorem witness_AnswerTimeDoesNotMatter :
    let s := launch p32 [3, 3, 99, 0] []
    s.Running ∧ s.waiting = false ∧ s.inputs = [] ∧ fetch s = .ok (.inp .position .position .position) := by decide

theorem witness_ChannelsReachOnlyInAndOut :
    let s := launch p32 [1, 0, 0, 0, 99] []
    fetch s = .ok (.add .position .position .position) ∧
      (∀ m1 m2 m3, Instr.add .position .position .position ≠ .inp m1 m2 m3) ∧
      (∀ m1 m2 m3, Instr.add .position .position .position ≠ .out m1 m2 m3) ∧ ∃ t, step s = .next t :=
  ⟨rfl, by simp, by simp, ⟨_, rfl⟩⟩

/-- Images at both ends of the word range of W = 15, and one word beyond. -/
theorem witness_ConstructionSetsTheLaunchState :
    Params.wf ⟨15, .fault, .permit⟩ = true ∧ (∀ v ∈ ([-16384, 16383] : List Int), Word.InRange 15 v) ∧
      ∃ v ∈ ([16384] : List Int), ¬Word.InRange 15 v := by decide

theorem witness_EmptyImageFaultsAtIndexZero : Params.wf ⟨15, .wrap, .fault⟩ = true := by decide

theorem witness_ConstructionMeetsTheInvariant :
    startRun p32 [3, 0, 4, 0, 99] [.value (-2147483648), .ioError] (some 1) =
        .next (State.launched p32 [3, 0, 4, 0, 99] [.value (-2147483648), .ioError] (some 1)) ∧
      ∀ a ∈ ([.value (-2147483648), .ioError] : List InAnswer), a.IsWord p32.wordBits := by
  refine ⟨rfl, fun a ha => ?_⟩
  rcases List.mem_cons.1 ha with rfl | ha
  · decide
  · obtain rfl := List.mem_singleton.1 ha
    trivial

/-- A run that reads one input and is answered: section 2.5, `[103,0,99]` with 7. -/
theorem witness_RunsEndWithinTheBound : HostAnswersInput (launch p32 [103, 0, 99] [.value 7]) := by
  intro n
  match n with
  | 0 => decide
  | 1 => decide
  | n + 2 =>
    rw [runFor_succ (s := launch p32 [103, 0, 99] [.value 7]) rfl, runFor_succ rfl, runFor_of_not_running (by decide)]
    decide

/-- RunEndsInExactlyOneOfThreeWays and NormalEndStandsOnAHaltWord: W2's run ends normally. -/
theorem witness_normal_end :
    (launch p32 [1, 0, 0, 0, 99] [.value 2147483647]).Inv ∧
      (runFor 2 (launch p32 [1, 0, 0, 0, 99] [.value 2147483647])).NormalEnd :=
  ⟨witness_invariant_at_launch, by unfold State.NormalEnd; decide⟩

/-- Images at both ends of the word range of W = 15, and one word beyond. -/
theorem witness_RunsStartFromTheLaunchPremisesAlone :
    Params.wf ⟨15, .wrap, .fault⟩ = true ∧ (∀ v ∈ ([-16384, 16383] : List Int), Word.InRange 15 v) ∧
      ∃ v ∈ ([-16385] : List Int), ¬Word.InRange 15 v := by decide

/-- A port that never fails; one that takes one event and fails the second OUT, after which the run has that fault. -/
theorem witness_OutputPortTakesTheEventsItsAnswersAllow :
    (let s := State.launched p32 [104, -5, 99] [] none
     s.fault = none ∧ s.outLeft = none) ∧
    (let s := State.launched p32 [104, -5, 104, 6, 99] [] (some 1)
     s.fault = none ∧ s.outLeft = some 1 ∧ (runFor 2 s).fault = some (.ioError .output 2)) := by decide

/-! ### Witnesses: the channel text -/

theorem witness_DecimalTextIsCanonical : (-1 : Int) < 0 ∧ (0 : Int) < 1 := by decide

theorem witness_DecimalTextReadsBack :
    Word.InRange 15 (-16384) ∧ (∀ c ∈ [' ', '\t'], isTrimmed c = true) ∧ ∀ c ∈ ['\r', '\n'], isTrimmed c = true := by
  refine ⟨by decide, ?_, ?_⟩ <;> simp [isTrimmed]

theorem witness_AcceptedLinesAreSignedDecimals :
    (∀ v, answerLine 15 ['a'] ≠ .value v) ∧ ([['7']] : List Text)[0]? = some ['7'] := by
  refine ⟨fun v h => ?_, rfl⟩
  rw [show answerLine 15 ['a'] = .formatError ['a'] from rfl] at h
  cases h

end Sys2Proof.Tests
end

section
/-! ### The number of memory words (R7) -/

namespace Sys2Proof.Machine

theorem promptAndRequest_ok_mem {s u : State} (h : promptAndRequest s = (.ok, u)) : u.mem = s.mem := by
  rcases promptAndRequest_ok h with ⟨-, rfl⟩ | ⟨-, -, rfl⟩
  · rfl
  · simp

theorem receive_mem_length (d : Int) (s : State) : (receive d s).mem.length = s.mem.length := by
  rcases receive_cases d s with ⟨-, h⟩ | ⟨v, rest, m, -, hm, h⟩ | ⟨a, rest, f, -, -, h⟩
  · rw [h]
  · rw [h]
    exact Memory.write_length hm
  · simp [h]

/-- R7: only ADD, MUL and an answered IN write memory, and each replaces one word in place. -/
theorem step_mem_length {s t : State} (h : step s = .next t) : t.mem.length = s.mem.length := by
  by_cases hr : s.Running
  · rcases step_cases hr h with ⟨f, -, rfl⟩ |
      ⟨op, m1, m2, m3, a, b, d, r, m, -, -, -, -, -, hm, rfl⟩ |
      ⟨m1, m2, m3, d, u, -, -, hu, rfl⟩ | ⟨m1, m2, m3, v, -, -, -, rfl⟩ |
      ⟨m1, m2, m3, -, rfl⟩ | ⟨e, -, rfl, -⟩
    case inr.inl => exact Memory.write_length hm
    case inr.inr.inl => rw [receive_mem_length, promptAndRequest_ok_mem hu]
    all_goals simp
  · rw [step_of_not_running hr] at h
    obtain rfl := Host.Outcome.next.inj h
    rfl

theorem runFor_mem_length (n : Nat) (s : State) : (runFor n s).mem.length = s.mem.length :=
  runFor_induction (P := fun t => t.mem.length = s.mem.length)
    (fun _ _ ht hstep => (step_mem_length hstep).trans ht) n s rfl

/-- 0 is a word of every width (R6). -/
theorem inRange_zero (W : Nat) : Word.InRange W 0 := by
  have hhalf : 0 < Word.half W := by simp [Word.half]
  constructor <;> omega

/-- R116: an image of zeros, of whatever length, is in the word range of every width. -/
theorem wordsInRange_replicate_zero (W N : Nat) : wordsInRange W (List.replicate N 0) = true :=
  wordsInRange_iff.2 fun _ hv => List.eq_of_mem_replicate hv ▸ inRange_zero W

/-- Settles O28: the run keeps the length because every step does, and the image of `N` zeros is accepted. -/
theorem memoryKeepsTheImagesLength : Obligations.MemoryKeepsTheImagesLength := by
  unfold Obligations.MemoryKeepsTheImagesLength
  constructor
  · intro p image answers left s n hs
    obtain ⟨-, -, rfl⟩ := startRun_next_iff.1 hs
    exact ⟨rfl, runFor_mem_length n _⟩
  · intro p N hp
    exact ⟨List.replicate N 0, State.constructed p (List.replicate N 0), List.length_replicate,
      construct_next_iff.2 ⟨hp, wordsInRange_replicate_zero _ N, rfl⟩⟩

end Sys2Proof.Machine
end

section
/-! ### The run status (R21) -/

namespace Sys2Proof.Machine

/-- `State.status` looks at the fault first; the invariant's `not_both` makes the flag alone decide `halted`. -/
theorem State.Inv.status_halted_iff {s : State} (hs : s.Inv) : s.status = .halted ↔ s.halted = true :=
  (status_halted s).trans (and_iff_right_of_imp hs.not_both)

/-- Settles O23, one status at a time; the invariant is needed for `halted` and for the exclusion. -/
theorem runStatusIsDerived : Obligations.RunStatusIsDerived := by
  unfold Obligations.RunStatusIsDerived
  intro s hs
  exact ⟨status_running s, hs.status_halted_iff, status_faulted s, fun ⟨hh, hf⟩ => hf (hs.not_both hh)⟩

end Sys2Proof.Machine
end

section
/-! ### The memory primitives on states (R33, R34) -/

namespace Sys2Proof.Machine

theorem memRead_ok_of_inBounds {s : State} {a : Int} (ha : 0 ≤ a ∧ a < s.mem.length) :
    ∃ u, s.mem[a.toNat]? = some u ∧ memRead s a = .ok u := by
  have hlt : a.toNat < s.mem.length := by omega
  have hu : s.mem[a.toNat]? = some s.mem[a.toNat] := List.getElem?_eq_getElem hlt
  exact ⟨_, hu, memRead_ok_iff.2 (Memory.read_eq_some_iff.2 ⟨ha.1, hu⟩)⟩

theorem memWrite_ok_of_inBounds {s : State} {a : Int} (v : Int) (ha : 0 ≤ a ∧ a < s.mem.length) :
    ∃ t, memWrite s a v = .ok t :=
  ⟨_, memWrite_ok_iff.2 ⟨_, Memory.write_eq_some_iff.2 ⟨ha, rfl⟩, rfl⟩⟩

theorem memWrite_changes_mem_only {s t : State} {a v : Int} (h : memWrite s a v = .ok t) :
    t = { s with mem := t.mem } := by
  obtain ⟨m, -, rfl⟩ := memWrite_ok_iff.1 h
  rfl

theorem memRead_memWrite_same {s t : State} {a v : Int} (h : memWrite s a v = .ok t) : memRead t a = .ok v := by
  obtain ⟨m, hm, rfl⟩ := memWrite_ok_iff.1 h
  exact memRead_ok_iff.2 (Memory.read_write_same hm)

/-- Faulting reads agree too: the write moves neither the length of memory nor `ip`. -/
theorem memRead_memWrite_other {s t : State} {a b v : Int} (h : memWrite s a v = .ok t) (hb : b ≠ a) :
    memRead t b = memRead s b := by
  obtain ⟨m, hm, rfl⟩ := memWrite_ok_iff.1 h
  unfold memRead
  rw [Memory.read_write_other hm hb]

/-- Settles O8: in bounds by the read-after-write rules, out of bounds by what `memRead` and `memWrite` raise. -/
theorem memoryPrimitivesReadAndWriteOneWord : Obligations.MemoryPrimitivesReadAndWriteOneWord := by
  unfold Obligations.MemoryPrimitivesReadAndWriteOneWord
  intro s a v
  constructor
  · intro ha
    obtain ⟨t, ht⟩ := memWrite_ok_of_inBounds v ha
    exact ⟨memRead_ok_of_inBounds ha, t, ht, memWrite_changes_mem_only ht, memRead_memWrite_same ht,
      fun _ hb => memRead_memWrite_other ht hb⟩
  · intro ha
    exact ⟨memRead_error_iff.2 ⟨ha, rfl⟩, memWrite_error_iff.2 ⟨ha, rfl⟩⟩

end Sys2Proof.Machine
end

section
/-! ### The fields of an instruction word (R10, R48) -/

namespace Sys2Proof

/-- R48: on a non-negative word the truncating remainder is the low two decimal digits. -/
theorem opcodeOf_of_nonneg {w : Int} (hw : 0 ≤ w) : opcodeOf w = w % 100 :=
  Int.tmod_eq_emod_of_nonneg hw

/-- R11: on a non-negative word truncating and flooring division give the same digit. -/
theorem digit_of_nonneg {w : Int} (hw : 0 ≤ w) (k : Nat) : digit k w = w / (10 ^ k : Nat) % 10 := by
  have hq : 0 ≤ w / (10 ^ k : Nat) := Int.ediv_nonneg hw (Int.natCast_nonneg _)
  rw [digit, Int.tdiv_eq_ediv_of_nonneg hw, Int.tmod_eq_emod_of_nonneg hq]

theorem tmod_hundred_of_neg {w : Int} (hw : w < 0) : -99 ≤ w.tmod 100 ∧ w.tmod 100 ≤ 0 := by
  have hneg : (-w).tmod 100 = -w % 100 := Int.tmod_eq_emod_of_nonneg (by omega)
  rw [Int.neg_tmod] at hneg
  omega

/-- R48: the opcode does not look at the digits from 5 up. -/
theorem opcodeOf_add_high {w : Int} (hw : 0 ≤ w) (n : Nat) : opcodeOf (w + 100000 * (n : Int)) = opcodeOf w := by
  rw [opcodeOf_of_nonneg (by omega), opcodeOf_of_nonneg hw]
  omega

/-- R48: nor does any of the digits below 5. -/
theorem digit_add_high {w : Int} (hw : 0 ≤ w) (n : Nat) {k : Nat} (hk : k ≤ 4) :
    digit k (w + 100000 * (n : Int)) = digit k w := by
  rw [digit_of_nonneg (by omega), digit_of_nonneg hw]
  interval_cases k <;> norm_num <;> omega

end Sys2Proof
end

section
/-! ### What the decoder answers, by the fields (R53, R54) -/

namespace Sys2Proof

theorem Mode.digit_mem (m : Mode) : m.digit ∈ ([0, 1] : List Int) := by cases m <;> decide

theorem Instr.opcode_mem (i : Instr) : i.opcode ∈ ([1, 2, 3, 4, 99] : List Int) := by cases i <;> simp [Instr.opcode]

theorem instrOfOpcode_of_mem {op : Int} (h : op ∈ ([1, 2, 3, 4, 99] : List Int)) :
    ∃ mk, instrOfOpcode op = some mk :=
  Option.ne_none_iff_exists'.1 fun hn => instrOfOpcode_eq_none_iff.1 hn h

theorem decodeMode_of_mem {w : Int} {k : Nat} (h : digit (k + 1) w ∈ ([0, 1] : List Int)) :
    ∃ m, decodeMode w k = .ok m := by
  simp only [List.mem_cons, List.not_mem_nil, or_false] at h
  rcases h with h | h
  · exact ⟨.position, decodeMode_ok_iff.2 h⟩
  · exact ⟨.immediate, decodeMode_ok_iff.2 h⟩

theorem decodeMode_of_not_mem {w : Int} {k : Nat} (h : digit (k + 1) w ∉ ([0, 1] : List Int)) :
    decodeMode w k = .error (.unknownMode w k (digit (k + 1) w)) :=
  decodeMode_error_iff.2 ⟨by simpa using h, rfl⟩

section

variable {w : Int}

theorem decodeWord_of_unknown_opcode (hop : opcodeOf w ∉ ([1, 2, 3, 4, 99] : List Int)) :
    decodeWord w = .error (.unknownOpcode w (opcodeOf w)) := by
  rw [decodeWord, instrOfOpcode_eq_none_iff.2 hop]

variable (hop : opcodeOf w ∈ ([1, 2, 3, 4, 99] : List Int))
include hop

theorem decodeWord_of_bad_mode1 (h1 : digit 2 w ∉ ([0, 1] : List Int)) :
    decodeWord w = .error (.unknownMode w 1 (digit 2 w)) := by
  obtain ⟨mk, hmk⟩ := instrOfOpcode_of_mem hop
  simp only [decodeWord, hmk, decodeMode_of_not_mem (k := 1) h1]

variable (h1 : digit 2 w ∈ ([0, 1] : List Int))
include h1

theorem decodeWord_of_bad_mode2 (h2 : digit 3 w ∉ ([0, 1] : List Int)) :
    decodeWord w = .error (.unknownMode w 2 (digit 3 w)) := by
  obtain ⟨mk, hmk⟩ := instrOfOpcode_of_mem hop
  obtain ⟨m1, hm1⟩ := decodeMode_of_mem (k := 1) h1
  simp only [decodeWord, hmk, hm1, decodeMode_of_not_mem (k := 2) h2]

variable (h2 : digit 3 w ∈ ([0, 1] : List Int))
include h2

theorem decodeWord_of_bad_mode3 (h3 : digit 4 w ∉ ([0, 1] : List Int)) :
    decodeWord w = .error (.unknownMode w 3 (digit 4 w)) := by
  obtain ⟨mk, hmk⟩ := instrOfOpcode_of_mem hop
  obtain ⟨m1, hm1⟩ := decodeMode_of_mem (k := 1) h1
  obtain ⟨m2, hm2⟩ := decodeMode_of_mem (k := 2) h2
  simp only [decodeWord, hmk, hm1, hm2, decodeMode_of_not_mem (k := 3) h3]

theorem decodeWord_of_legal_fields (h3 : digit 4 w ∈ ([0, 1] : List Int)) : ∃ i, decodeWord w = .ok i := by
  obtain ⟨mk, hmk⟩ := instrOfOpcode_of_mem hop
  obtain ⟨m1, hm1⟩ := decodeMode_of_mem (k := 1) h1
  obtain ⟨m2, hm2⟩ := decodeMode_of_mem (k := 2) h2
  obtain ⟨m3, hm3⟩ := decodeMode_of_mem (k := 3) h3
  exact ⟨mk m1 m2 m3, by simp only [decodeWord, hmk, hm1, hm2, hm3]⟩

end

/-- R63 by the fields: a word is legal when its opcode is known and each mode digit is 0 or 1. -/
theorem decodeWord_isOk_iff {w : Int} :
    (∃ i, decodeWord w = .ok i) ↔ opcodeOf w ∈ ([1, 2, 3, 4, 99] : List Int) ∧ digit 2 w ∈ ([0, 1] : List Int) ∧
      digit 3 w ∈ ([0, 1] : List Int) ∧ digit 4 w ∈ ([0, 1] : List Int) := by
  constructor
  · rintro ⟨i, hi⟩
    obtain ⟨hop, h1, h2, h3⟩ := decodeWord_ok_iff.1 hi
    exact ⟨hop ▸ i.opcode_mem, h1 ▸ Mode.digit_mem _, h2 ▸ Mode.digit_mem _, h3 ▸ Mode.digit_mem _⟩
  · rintro ⟨hop, h1, h2, h3⟩
    exact decodeWord_of_legal_fields hop h1 h2 h3

/-- The error with `w` as the word it records. -/
def DecodeError.forWord (w : Int) : DecodeError → DecodeError
  | .unknownOpcode _ op => .unknownOpcode w op
  | .unknownMode _ k d => .unknownMode w k d

/-- R48: the decoder sees the opcode and the three mode digits of a word and nothing else, but that an error records the
word itself. -/
theorem decodeWord_eq_of_fields {w v : Int} (hop : opcodeOf v = opcodeOf w) (h1 : digit 2 v = digit 2 w)
    (h2 : digit 3 v = digit 3 w) (h3 : digit 4 v = digit 4 w) :
    decodeWord v = (decodeWord w).mapError (DecodeError.forWord v) := by
  simp only [decodeWord, decodeMode, hop, h1, h2, h3]
  cases instrOfOpcode (opcodeOf w) with
  | none => rfl
  | some mk =>
    cases modeOfDigit (digit 2 w) with
    | none => rfl
    | some m1 =>
      cases modeOfDigit (digit 3 w) with
      | none => rfl
      | some m2 => cases modeOfDigit (digit 4 w) <;> rfl

theorem decodeWord_add_high {w : Int} (hw : 0 ≤ w) (n : Nat) :
    decodeWord (w + 100000 * (n : Int)) =
      (decodeWord w).mapError (DecodeError.forWord (w + 100000 * (n : Int))) :=
  decodeWord_eq_of_fields (opcodeOf_add_high hw n) (digit_add_high hw n (by decide)) (digit_add_high hw n (by decide))
    (digit_add_high hw n (by decide))

/-- R94, R95: an error of the decoder records the word decoded. -/
theorem decodeWord_error_forWord {w : Int} {e : DecodeError} (h : decodeWord w = .error e) : e.forWord w = e := by
  have hw := decodeWord_eq_of_fields (w := w) rfl rfl rfl rfl
  rw [h] at hw
  exact (Except.error.inj hw).symm

/-- Settles O4, one clause per line of R54. -/
theorem decoderChecksOpcodeThenModes : Obligations.DecoderChecksOpcodeThenModes := by
  unfold Obligations.DecoderChecksOpcodeThenModes
  intro w
  exact ⟨decodeWord_of_unknown_opcode, fun hop => ⟨decodeWord_of_bad_mode1 hop, fun h1 =>
    ⟨decodeWord_of_bad_mode2 hop h1, fun h2 =>
      ⟨decodeWord_of_bad_mode3 hop h1 h2, decodeWord_of_legal_fields hop h1 h2⟩⟩⟩⟩

theorem opcodeOf_not_mem_of_neg {w : Int} (hw : w < 0) : opcodeOf w ∉ ([1, 2, 3, 4, 99] : List Int) := by
  intro hmem
  have hpos : ∀ op ∈ ([1, 2, 3, 4, 99] : List Int), 0 < op := by decide
  exact absurd (hpos _ hmem) (not_lt.2 (tmod_hundred_of_neg hw).2)

/-- Settles O3: no opcode is zero or below, and the truncating remainder of a negative word is. -/
theorem negativeWordsAreUnknownOpcodes : Obligations.NegativeWordsAreUnknownOpcodes := by
  unfold Obligations.NegativeWordsAreUnknownOpcodes
  exact fun w hw => ⟨tmod_hundred_of_neg hw, decodeWord_of_unknown_opcode (opcodeOf_not_mem_of_neg hw)⟩

theorem nonneg_of_decodeWord_ok {w : Int} {i : Instr} (h : decodeWord w = .ok i) : 0 ≤ w := by
  by_contra hw
  exact opcodeOf_not_mem_of_neg (not_le.1 hw) ((decodeWord_ok_iff.1 h).1 ▸ i.opcode_mem)

/-- R48: `decodeWord_ok_iff` with the fields as flooring quotients and remainders. -/
theorem decodeWord_ok_fields {w : Int} {i : Instr} (h : decodeWord w = .ok i) :
    i.opcode = w % 100 ∧ i.modes.1.digit = w / 100 % 10 ∧ i.modes.2.1.digit = w / 1000 % 10 ∧
      i.modes.2.2.digit = w / 10000 % 10 := by
  have hw := nonneg_of_decodeWord_ok h
  obtain ⟨hop, h1, h2, h3⟩ := decodeWord_ok_iff.1 h
  rw [opcodeOf_of_nonneg hw] at hop
  rw [digit_of_nonneg hw] at h1 h2 h3
  exact ⟨hop.symm, h1.symm, h2.symm, h3.symm⟩

/-- Settles O5: the fields of a decoded word are its decimal digits, and the decoder sees no other digit. -/
theorem decodedFieldsAreDecimalDigits : Obligations.DecodedFieldsAreDecimalDigits := by
  unfold Obligations.DecodedFieldsAreDecimalDigits
  refine ⟨fun w i => decodeWord_ok_fields, fun w n hw => ?_⟩
  rw [decodeWord_add_high hw n]
  cases hd : decodeWord w with
  | ok i => simp [Except.mapError]
  | error e =>
    have hword := decodeWord_error_forWord hd
    cases e <;> simp_all [Except.mapError, DecodeError.forWord]

end Sys2Proof
end

section
/-! ### The legal words (R63) -/

namespace Sys2Proof

open Machine

theorem encodeWord_mem_legalWords (i : Instr) : encodeWord i ∈ legalWords := by
  cases i with
  | _ m1 m2 m3 => cases m1 <;> cases m2 <;> cases m3 <;> decide

theorem decodeWord_ok_of_mem_legalWords {v : Int} (hv : v ∈ legalWords) : ∃ i, decodeWord v = .ok i := by
  have hall : ∀ u ∈ legalWords, (decodeWord u).isOk = true := by decide
  have hok := hall v hv
  cases hd : decodeWord v with
  | ok i => exact ⟨i, rfl⟩
  | error e => simp [hd, Except.isOk, Except.toBool] at hok

/-- R63: below the fifth digit a word that decodes is the encoder's word of its instruction. -/
theorem mod_eq_encodeWord_of_decodeWord_ok {w : Int} {i : Instr} (h : decodeWord w = .ok i) :
    w % 100000 = encodeWord i := by
  obtain ⟨hop, h1, h2, h3⟩ := decodeWord_ok_fields h
  rw [encodeWord, hop, h1, h2, h3]
  omega

theorem decodeWord_ok_iff_mem_legalWords {w : Int} (hw : w < 100000) :
    (∃ i, decodeWord w = .ok i) ↔ w ∈ legalWords := by
  refine ⟨fun ⟨i, hi⟩ => ?_, decodeWord_ok_of_mem_legalWords⟩
  rw [← Int.emod_eq_of_lt (nonneg_of_decodeWord_ok hi) hw, mod_eq_encodeWord_of_decodeWord_ok hi]
  exact encodeWord_mem_legalWords i

theorem decodeWord_ok_iff_legalWords_add {w : Int} :
    (∃ i, decodeWord w = .ok i) ↔ ∃ v ∈ legalWords, ∃ n : Nat, w = v + 100000 * (n : Int) := by
  constructor
  · rintro ⟨i, hi⟩
    have hw := nonneg_of_decodeWord_ok hi
    have hmod := mod_eq_encodeWord_of_decodeWord_ok hi
    exact ⟨encodeWord i, encodeWord_mem_legalWords i, (w / 100000).toNat, by omega⟩
  · rintro ⟨v, hv, n, rfl⟩
    obtain ⟨i, hi⟩ := decodeWord_ok_of_mem_legalWords hv
    rw [decodeWord_add_high (nonneg_of_decodeWord_ok hi), hi]
    exact ⟨i, rfl⟩

/-- R63: `decodeWord_isOk_iff` with the mode digits as flooring quotients and remainders. -/
theorem decodeWord_isOk_iff_fields {w : Int} :
    (∃ i, decodeWord w = .ok i) ↔ 0 ≤ w ∧ w.tmod 100 ∈ ([1, 2, 3, 4, 99] : List Int) ∧
      w / 100 % 10 ∈ ([0, 1] : List Int) ∧ w / 1000 % 10 ∈ ([0, 1] : List Int) ∧ w / 10000 % 10 ∈ ([0, 1] : List Int) := by
  rw [← and_iff_right_of_imp (a := 0 ≤ w) (b := ∃ i, decodeWord w = .ok i) fun ⟨_, hi⟩ => nonneg_of_decodeWord_ok hi]
  refine and_congr_right fun hw => ?_
  rw [decodeWord_isOk_iff, digit_of_nonneg hw, digit_of_nonneg hw, digit_of_nonneg hw]
  exact Iff.rfl

end Sys2Proof

namespace Sys2Proof.Machine

theorem DecodeError.toFault_code (e : DecodeError) (ip : Nat) :
    (DecodeError.toFault ip e).code = 1 ∨ (DecodeError.toFault ip e).code = 2 := by
  cases e
  · exact .inl rfl
  · exact .inr rfl

theorem fetch_eq_decodeAt {s : State} {w : Int} (hw : s.mem[s.ip]? = some w) : fetch s = decodeAt s w := by
  have hread : memRead s s.ip = .ok w := memRead_ok_iff.2 (by rw [Memory.read_natCast, hw])
  rw [fetch, hread]

theorem step_of_decode_error {s : State} {w : Int} {e : DecodeError} (hr : s.Running)
    (hw : s.mem[s.ip]? = some w) (he : decodeWord w = .error e) :
    step s = .next (s.raise (DecodeError.toFault s.ip e)) := by
  have hf : fetch s = .error (DecodeError.toFault s.ip e) := by rw [fetch_eq_decodeAt hw, decodeAt, he]
  rw [step_of_running hr, hf]

/-- R63, R94, R95: an illegal word fetched by a running machine. -/
theorem step_of_illegal_word {s : State} {w : Int} (hr : s.Running) (hw : s.mem[s.ip]? = some w)
    (hd : ∀ i, decodeWord w ≠ .ok i) :
    ∃ f : Fault, (f.code = 1 ∨ f.code = 2) ∧ step s = .next (s.raise f) := by
  cases he : decodeWord w with
  | ok i => exact absurd he (hd i)
  | error e => exact ⟨_, DecodeError.toFault_code e s.ip, step_of_decode_error hr hw he⟩

/-- Settles O2, clause by clause. -/
theorem legalWordsAreExactlyTheListed : Obligations.LegalWordsAreExactlyTheListed := by
  unfold Obligations.LegalWordsAreExactlyTheListed
  exact ⟨fun _ => decodeWord_isOk_iff_fields, fun _ => decodeWord_ok_iff_mem_legalWords,
    fun _ => decodeWord_ok_iff_legalWords_add, fun _ _ => step_of_illegal_word⟩

end Sys2Proof.Machine
end

section
/-! ### Source operands (R59) -/

namespace Sys2Proof.Machine

theorem readOperand_ok_iff_reads {s : State} {slot : Nat} {m : Mode} {v : Int} :
    readOperand s slot m = .ok v ↔ Reads s slot m v := by
  rw [readOperand_ok_iff]
  cases m with
  | immediate => simp [Reads]
  | position =>
    simp only [resolve_position_ok_iff, Memory.read_eq_some_iff, Reads]
    constructor
    · rintro ⟨a, hslot, ha, hv⟩
      exact ⟨a.toNat, by rw [hslot, Int.toNat_of_nonneg ha], hv⟩
    · rintro ⟨p, hslot, hv⟩
      exact ⟨p, hslot, Int.natCast_nonneg p, hv⟩

/-- A fault of the resolver, or of the one read after it. -/
theorem readOperand_error_iff {s : State} {slot : Nat} {m : Mode} {f : Fault} :
    readOperand s slot m = .error f ↔
      resolve s slot m = .error f ∨ ∃ a, resolve s slot m = .ok a ∧ memRead s a = .error f := by
  unfold readOperand
  cases resolve s slot m <;> simp

theorem resolve_position_error_iff {s : State} {slot : Nat} {f : Fault} :
    resolve s slot .position = .error f ↔ s.mem.length ≤ slot ∧ f = .bounds slot s.ip := by
  rw [resolve, memRead_error_iff]
  exact and_congr_left' (by omega)

theorem readOperand_error_iff_readsOutside {s : State} {slot : Nat} {m : Mode} {f : Fault} :
    readOperand s slot m = .error f ↔ ∃ i, ReadsOutside s slot m i ∧ f = .bounds i s.ip := by
  rw [readOperand_error_iff]
  cases m with
  | immediate =>
    simp only [resolve_immediate, reduceCtorEq, false_or, Except.ok.injEq, exists_eq_left', memRead_error_iff,
      ReadsOutside, and_assoc, exists_eq_left]
    exact and_congr_left' (by omega)
  | position =>
    simp only [resolve_position_error_iff, resolve_position_ok_iff, memRead_error_iff, ReadsOutside, or_and_right,
      exists_or, and_assoc, exists_eq_left]

/-- Settles O9: the value read and the fault raised, each through the resolver's own lemmas. -/
theorem sourceOperandsFollowTheirMode : Obligations.SourceOperandsFollowTheirMode := by
  unfold Obligations.SourceOperandsFollowTheirMode
  exact fun _ _ _ => ⟨fun _ => readOperand_ok_iff_reads, fun _ => readOperand_error_iff_readsOutside⟩

end Sys2Proof.Machine
end

section
/-! ### Destinations, and ADD, MUL and IN by the outcome of their operands (R60, R77, R78, R80) -/

namespace Sys2Proof.Machine

theorem resolveDst_position_ok_iff {s : State} {slot : Nat} {d : Int} :
    resolveDst s slot .position = .ok d ↔ s.mem[slot]? = some d :=
  resolve_position_ok_iff

theorem resolveDst_immediate_of_permit {s : State} (h : s.params.immDst = .permit) (slot : Nat) :
    resolveDst s slot .immediate = .ok (slot : Int) := by
  simp only [resolveDst, h, resolve_immediate]

theorem resolveDst_immediate_of_fault {s : State} (h : s.params.immDst = .fault) (slot : Nat) :
    resolveDst s slot .immediate = .error (.immediateDestination slot s.ip) := by
  simp only [resolveDst, h]

theorem memWrite_of_inBounds {s : State} {d : Int} (v : Int) (hd : 0 ≤ d ∧ d < s.mem.length) :
    memWrite s d v = .ok { s with mem := s.mem.set d.toNat v } :=
  memWrite_ok_iff.2 ⟨_, Memory.write_eq_some_iff.2 ⟨hd, rfl⟩, rfl⟩

section

variable {s : State} {op : AluOp} {m1 m2 m3 : Mode}

theorem exec_aluInstr_of_source1_outside {i : Int} (h1 : ReadsOutside s (s.ip + 1) m1 i) :
    exec (op.instr m1 m2 m3) s = .next (s.raise (.bounds i s.ip)) := by
  have hr1 := readOperand_error_iff_readsOutside.2 ⟨i, h1, rfl⟩
  simp only [exec_aluInstr, binaryOp, State.slot_eq, hr1, State.complete]

theorem exec_aluInstr_of_source2_outside {a i : Int} (h1 : Reads s (s.ip + 1) m1 a)
    (h2 : ReadsOutside s (s.ip + 2) m2 i) : exec (op.instr m1 m2 m3) s = .next (s.raise (.bounds i s.ip)) := by
  have hr1 := readOperand_ok_iff_reads.2 h1
  have hr2 := readOperand_error_iff_readsOutside.2 ⟨i, h2, rfl⟩
  simp only [exec_aluInstr, binaryOp, State.slot_eq, hr1, hr2, State.complete]

theorem exec_aluInstr_of_destination_fault {a b : Int} {f : Fault} (h1 : Reads s (s.ip + 1) m1 a)
    (h2 : Reads s (s.ip + 2) m2 b) (h3 : resolveDst s (s.ip + 3) m3 = .error f) :
    exec (op.instr m1 m2 m3) s = .next (s.raise f) := by
  have hr1 := readOperand_ok_iff_reads.2 h1
  have hr2 := readOperand_ok_iff_reads.2 h2
  simp only [exec_aluInstr, binaryOp, State.slot_eq, hr1, hr2, h3, State.complete]

theorem exec_aluInstr_of_store {a b d r : Int} (h1 : Reads s (s.ip + 1) m1 a)
    (h2 : Reads s (s.ip + 2) m2 b) (h3 : resolveDst s (s.ip + 3) m3 = .ok d) (hr : narrow op s a b = .ok r)
    (hd : 0 ≤ d ∧ d < s.mem.length) :
    exec (op.instr m1 m2 m3) s = .next { s with mem := s.mem.set d.toNat r, ip := s.ip + 4 } := by
  have hr1 := readOperand_ok_iff_reads.2 h1
  have hr2 := readOperand_ok_iff_reads.2 h2
  simp only [exec_aluInstr, binaryOp, State.slot_eq, hr1, hr2, h3, hr, memWrite_of_inBounds r hd, State.complete,
    State.advance]

end

theorem exec_inp_of_destination_fault {s : State} {m1 : Mode} {f : Fault} (m2 m3 : Mode)
    (h : resolveDst s (s.ip + 1) m1 = .error f) : exec (.inp m1 m2 m3) s = .next (s.raise f) := by
  simp only [exec, execIn, State.slot_eq, h]

theorem exec_inp_of_prompted {s u : State} {m1 : Mode} {d : Int} (m2 m3 : Mode)
    (hd : resolveDst s (s.ip + 1) m1 = .ok d) (hu : promptAndRequest s = (.ok, u)) :
    exec (.inp m1 m2 m3) s = .next (receive d u) := by
  simp only [exec, execIn, State.slot_eq, hd, hu]

/-- R80: unless the output port fails, the prompt and the request touch neither memory nor ip nor the answers. -/
theorem promptAndRequest_of_outputOk {s : State} (h : s.OutputOk) :
    ∃ u, promptAndRequest s = (.ok, u) ∧ u.mem = s.mem ∧ u.ip = s.ip ∧ u.inputs = s.inputs := by
  unfold promptAndRequest
  cases s.waiting with
  | true => exact ⟨s, rfl, rfl, rfl, rfl⟩
  | false =>
    rw [outPort_of_ok h]
    exact ⟨(s.sent .prompt).request, rfl, by simp, by simp, by simp⟩

/-- R60, R80: an answered IN with an immediate destination replaces its own parameter. -/
theorem exec_inp_immediate_of_permit {s : State} {v : Int} {rest : List InAnswer} (m2 m3 : Mode)
    (hp : s.params.immDst = .permit) (ho : s.OutputOk) (hin : s.inputs = .value v :: rest)
    (hlt : s.ip + 1 < s.mem.length) :
    ∃ t, exec (.inp .immediate m2 m3) s = .next t ∧ t.mem = s.mem.set (s.ip + 1) v ∧ t.ip = s.ip + 2 := by
  obtain ⟨u, hu, hmem, hip, hinputs⟩ := promptAndRequest_of_outputOk ho
  have hd : (0 : Int) ≤ (s.ip + 1 : Nat) ∧ ((s.ip + 1 : Nat) : Int) < u.mem.length := by rw [hmem]; omega
  refine ⟨_, exec_inp_of_prompted m2 m3 (resolveDst_immediate_of_permit hp _) hu, ?_⟩
  rw [receive_value (hinputs.trans hin) hd, hmem, hip, Int.toNat_natCast]
  exact ⟨rfl, rfl⟩

/-- R60, R77, R78: ADD and MUL with an immediate destination replace the parameter in slot 3. -/
theorem exec_aluInstr_immediate_of_permit {op : AluOp} {s : State} {m1 m2 : Mode} {a b r : Int}
    (hp : s.params.immDst = .permit) (h1 : Reads s (s.ip + 1) m1 a) (h2 : Reads s (s.ip + 2) m2 b)
    (hr : narrow op s a b = .ok r) (hlt : s.ip + 3 < s.mem.length) :
    exec (op.instr m1 m2 .immediate) s = .next { s with mem := s.mem.set (s.ip + 3) r, ip := s.ip + 4 } := by
  have hd : (0 : Int) ≤ (s.ip + 3 : Nat) ∧ ((s.ip + 3 : Nat) : Int) < s.mem.length := by omega
  rw [exec_aluInstr_of_store h1 h2 (resolveDst_immediate_of_permit hp _) hr hd, Int.toNat_natCast]

/-- Settles O10: the resolver's answer under each policy, and what ADD, MUL and IN make of it. -/
theorem immediateDestinationsFollowThePolicy : Obligations.ImmediateDestinationsFollowThePolicy := by
  unfold Obligations.ImmediateDestinationsFollowThePolicy
  refine ⟨rfl, fun s slot => ⟨fun d => resolveDst_position_ok_iff, ?_, ?_⟩, fun s m1 m2 m3 hp => ⟨?_, ?_⟩,
    fun s m1 m2 m3 hf => ⟨?_, ?_, ?_, ?_⟩⟩
  · exact fun hp => resolveDst_immediate_of_permit hp slot
  · exact fun hf => resolveDst_immediate_of_fault hf slot
  · exact fun op a b r h1 h2 hr hlt => exec_aluInstr_immediate_of_permit hp h1 h2 hr hlt
  · exact fun v rest ho hin hlt => exec_inp_immediate_of_permit m2 m3 hp ho hin hlt
  · exact fun op a b h1 h2 => exec_aluInstr_of_destination_fault h1 h2 (resolveDst_immediate_of_fault hf _)
  · exact fun op i h1 => exec_aluInstr_of_source1_outside h1
  · exact fun op a i h1 h2 => exec_aluInstr_of_source2_outside h1 h2
  · exact exec_inp_of_destination_fault m2 m3 (resolveDst_immediate_of_fault hf _)

end Sys2Proof.Machine
end

section
/-! ### The outcomes of one step (R66 to R69, R72) -/

namespace Sys2Proof.Machine

/-! #### Every step answers a next state -/

theorem complete_total (s : State) (x : Except Fault State) : ∃ t, s.complete x = .next t := by
  cases x <;> exact ⟨_, rfl⟩

theorem execIn_total (m1 : Mode) (s : State) : ∃ t, execIn m1 s = .next t := by
  unfold execIn
  split
  · exact ⟨_, rfl⟩
  · split <;> exact ⟨_, rfl⟩

theorem execOut_total (m1 : Mode) (s : State) : ∃ t, execOut m1 s = .next t := by
  unfold execOut
  split
  · exact ⟨_, rfl⟩
  · split <;> exact ⟨_, rfl⟩

theorem exec_total (i : Instr) (s : State) : ∃ t, exec i s = .next t := by
  cases i with
  | add m1 m2 m3 => exact complete_total s _
  | mul m1 m2 m3 => exact complete_total s _
  | inp m1 m2 m3 => exact execIn_total m1 s
  | out m1 m2 m3 => exact execOut_total m1 s
  | halt m1 m2 m3 => exact ⟨_, rfl⟩

theorem step_of_fetch_ok {s : State} {i : Instr} (hr : s.Running) (hi : fetch s = .ok i) : step s = exec i s := by
  rw [step_of_running hr, hi]

theorem step_of_fetch_error {s : State} {f : Fault} (hr : s.Running) (hf : fetch s = .error f) :
    step s = .next (s.raise f) := by
  rw [step_of_running hr, hf]

theorem eq_of_step_of_not_running {s t : State} (hr : ¬s.Running) (h : step s = .next t) : t = s :=
  Host.Outcome.next.inj (h.symm.trans (step_of_not_running hr))

theorem step_total (s : State) : ∃ t, step s = .next t := by
  by_cases hr : s.Running
  · cases hf : fetch s with
    | ok i =>
      rw [step_of_fetch_ok hr hf]
      exact exec_total i s
    | error f => exact ⟨_, step_of_fetch_error hr hf⟩
  · exact ⟨s, step_of_not_running hr⟩

/-! #### Fetch and dispatch (R67) -/

/-- R67: the fetch itself is bounds-checked. -/
theorem fetch_of_outside {s : State} (h : s.mem.length ≤ s.ip) : fetch s = .error (.bounds s.ip s.ip) := by
  have hread : memRead s s.ip = .error (.bounds s.ip s.ip) := memRead_error_iff.2 ⟨by omega, rfl⟩
  rw [fetch, hread]

/-- Settles O21, by what the fetch answers: an instruction, `Bounds`, or the decoder's error. -/
theorem stepRunsTheDecodedInstruction : Obligations.StepRunsTheDecodedInstruction := by
  unfold Obligations.StepRunsTheDecodedInstruction
  intro s hr
  exact ⟨fun w i hw hd => step_of_fetch_ok hr (fetch_ok_iff.2 ⟨w, hw, hd⟩),
    fun hlen => step_of_fetch_error hr (fetch_of_outside hlen),
    fun _ _ hw hd => step_of_decode_error hr hw hd, fun _ _ _ hw hd => step_of_decode_error hr hw hd⟩

/-! #### The input wait (R29) -/

/-- The machine stands at an IN whose destination is resolved: the only place where R29 lets it wait. -/
def State.AtIn (s : State) : Prop :=
  ∃ m1 m2 m3 d, fetch s = .ok (.inp m1 m2 m3) ∧ resolveDst s (s.slot 1) m1 = .ok d

/-- The part of `State.Inv` on which the wait as a fixed point rests. -/
def State.WaitsOnlyAtIn (s : State) : Prop := s.waiting = true → s.AtIn

theorem State.Inv.waitsOnlyAtIn {s : State} (hs : s.Inv) : s.WaitsOnlyAtIn := fun hw => (hs.waiting_in hw).2

theorem promptAndRequest_ok_frame {s u : State} (h : promptAndRequest s = (.ok, u)) :
    u.waiting = true ∧ u.ip = s.ip ∧ u.fault = s.fault ∧ u.halted = s.halted := by
  rcases promptAndRequest_ok h with ⟨hw, rfl⟩ | ⟨-, -, rfl⟩
  · exact ⟨hw, rfl, rfl, rfl⟩
  · exact ⟨rfl, rfl, rfl, rfl⟩

theorem promptAndRequest_ok_atIn {s u : State} (h : promptAndRequest s = (.ok, u)) (hs : s.AtIn) : u.AtIn := by
  rcases promptAndRequest_ok h with ⟨-, rfl⟩ | ⟨-, -, rfl⟩ <;> exact hs

theorem promptAndRequest_of_waiting {s : State} (h : s.waiting = true) : promptAndRequest s = (.ok, s) := by
  rw [promptAndRequest, if_pos h]

/-- R29: "the machine stays in the wait" until the host answers. -/
theorem step_of_stuck {s : State} (hs : s.WaitsOnlyAtIn) (h : s.Stuck) : step s = .next s := by
  obtain ⟨hr, hw, hin⟩ := h
  obtain ⟨m1, m2, m3, d, hi, hd⟩ := hs hw
  rw [step_of_fetch_ok hr hi, exec_inp_of_prompted m2 m3 hd (promptAndRequest_of_waiting hw), receive_nil hin]

/-! #### The three outcomes -/

/-- R68: `t` is `s` after instruction `i`, completed.  Only IN ends a wait, so a wait that outlives the step is one
that another instruction was run in, which the invariant forbids. -/
structure Completed (i : Instr) (s t : State) : Prop where
  fetched : fetch s = .ok i
  ip : t.ip = s.ip + ipAdvance i
  no_fault : t.fault = none
  halted_of_halt : (∃ m1 m2 m3, i = .halt m1 m2 m3) → t.halted = true
  waiting : t.waiting = true → s.waiting = true ∧ ∀ m1 m2 m3, i ≠ .inp m1 m2 m3

/-- R29, R80: once the destination is resolved and the prompt is sent, an IN takes a fault, waits, or stores its answer. -/
theorem receive_outcome {s u : State} {m1 m2 m3 : Mode} {d : Int} (hr : s.Running)
    (hi : fetch s = .ok (.inp m1 m2 m3)) (hd : resolveDst s (s.slot 1) m1 = .ok d)
    (hu : promptAndRequest s = (.ok, u)) :
    (∃ f, (receive d u).fault = some f ∧ (receive d u).waiting = false ∧ (receive d u).ip = s.ip) ∨
      ((receive d u).Stuck ∧ (receive d u).AtIn ∧ (receive d u).ip = s.ip) ∨
      Completed (.inp m1 m2 m3) s (receive d u) := by
  obtain ⟨hw, hip, hf, hh⟩ := promptAndRequest_ok_frame hu
  rcases receive_cases d u with ⟨hin, h⟩ | ⟨v, rest, m, -, -, h⟩ | ⟨a, rest, f, -, -, h⟩
  · rw [h]
    have hur : u.Running := ⟨hh.trans hr.1, hf.trans hr.2⟩
    exact .inr (.inl ⟨⟨hur, hw, hin⟩, promptAndRequest_ok_atIn hu ⟨m1, m2, m3, d, hi, hd⟩, hip⟩)
  · rw [h]
    exact .inr (.inr ⟨hi, by simp [hip, ipAdvance], hf.trans hr.2, by simp, by simp⟩)
  · rw [h]
    exact .inl ⟨f, rfl, rfl, hip⟩

/-- R67 to R69: a step of a running machine takes a fault, is left waiting for input, or completes its instruction. -/
theorem step_outcome {s t : State} (hr : s.Running) (h : step s = .next t) :
    (∃ f, t.fault = some f ∧ t.waiting = false ∧ t.ip = s.ip) ∨
      (t.Stuck ∧ t.AtIn ∧ t.ip = s.ip) ∨ ∃ i, Completed i s t := by
  rcases step_cases hr h with ⟨f, -, rfl⟩ |
    ⟨op, m1, m2, m3, a, b, d, r, m, hi, -, -, -, -, -, rfl⟩ |
    ⟨m1, m2, m3, d, u, hi, hd, hu, rfl⟩ | ⟨m1, m2, m3, v, hi, -, -, rfl⟩ |
    ⟨m1, m2, m3, hi, rfl⟩ | ⟨e, -, rfl, -⟩
  · exact .inl ⟨f, rfl, rfl, rfl⟩
  · refine .inr (.inr ⟨_, hi, ?_, hr.2, ?_, ?_⟩)
    all_goals cases op <;> simp [AluOp.instr, ipAdvance]
  · exact (receive_outcome hr hi hd hu).imp_right (Or.imp_right fun hc => ⟨_, hc⟩)
  · exact .inr (.inr ⟨_, hi, rfl, hr.2, by simp, by simp⟩)
  · exact .inr (.inr ⟨_, hi, rfl, hr.2, by simp, by simp⟩)
  · exact .inl ⟨_, rfl, rfl, rfl⟩

/-- R29: a completed instruction leaves no wait behind. -/
theorem Completed.not_waiting {i : Instr} {s t : State} (h : Completed i s t) (hs : s.WaitsOnlyAtIn) :
    t.waiting = false := by
  by_contra hw
  obtain ⟨hsw, hne⟩ := h.waiting (by simpa using hw)
  obtain ⟨m1, m2, m3, -, hi, -⟩ := hs hsw
  exact hne m1 m2 m3 (Except.ok.inj (h.fetched.symm.trans hi))

/-- Settles O25: each of the step's three outcomes says what became of ip. -/
theorem ipAdvancesByFourTwoOrNothing : Obligations.IpAdvancesByFourTwoOrNothing := by
  unfold Obligations.IpAdvancesByFourTwoOrNothing
  intro s t hs hr h
  rcases step_outcome hr h with ⟨f, hf, -, hip⟩ | ⟨⟨-, hw, -⟩, -, hip⟩ | ⟨i, hc⟩
  · exact ⟨fun hn => by simp [hf] at hn, fun _ => hip⟩
  · exact ⟨fun _ hn => by simp [hw] at hn, fun _ => hip⟩
  · refine ⟨fun _ _ => ⟨i, hc.fetched, hc.ip.trans (by cases i <;> rfl)⟩, ?_⟩
    rintro (hf | hw)
    · exact absurd hc.no_fault hf
    · simp [hc.not_waiting hs.waitsOnlyAtIn] at hw

end Sys2Proof.Machine
end

section
/-! ### The end of a run (R71, R73) -/

namespace Sys2Proof.Machine

/-- R73: a step ends the run, leaves it stuck, or moves ip up by at least 2. -/
theorem step_progress {s t : State} (h : step s = .next t) : ¬t.Running ∨ t.Stuck ∨ s.ip + 2 ≤ t.ip := by
  by_cases hr : s.Running
  · rcases step_outcome hr h with ⟨f, hf, -, -⟩ | ⟨hst, -, -⟩ | ⟨i, hc⟩
    · exact .inl fun ht => by simp [ht.2] at hf
    · exact .inr (.inl hst)
    · have hip := hc.ip
      cases i with
      | halt m1 m2 m3 => exact .inl fun ht => Bool.false_ne_true (ht.1.symm.trans (hc.halted_of_halt ⟨m1, m2, m3, rfl⟩))
      | _ m1 m2 m3 => exact .inr (.inr (by rw [hip]; simp [ipAdvance]))
  · obtain rfl := eq_of_step_of_not_running hr h
    exact .inl hr

theorem step_of_outside_ends {s t : State} (hlen : s.mem.length ≤ s.ip) (h : step s = .next t) : ¬t.Running := by
  by_cases hr : s.Running
  · rw [step_of_fetch_error hr (fetch_of_outside hlen)] at h
    simp [← Host.Outcome.next.inj h]
  · obtain rfl := eq_of_step_of_not_running hr h
    exact hr

/-- R73: `n` turns bring ip to the end of memory, and the fetch of the next one faults; unless the run ends or is stuck
before. -/
theorem runFor_ends_or_gets_stuck (n : Nat) (s : State) (hlen : s.mem.length ≤ s.ip + 2 * n) :
    ¬(runFor (n + 1) s).Running ∨ ∃ k ≤ n + 1, (runFor k s).Stuck := by
  induction n generalizing s with
  | zero =>
    obtain ⟨t, ht⟩ := step_total s
    rw [runFor_succ ht]
    exact .inl (step_of_outside_ends hlen ht)
  | succ n ih =>
    obtain ⟨t, ht⟩ := step_total s
    rcases step_progress ht with hend | hst | hip
    · rw [runFor_succ ht, runFor_of_not_running hend]
      exact .inl hend
    · exact .inr ⟨1, by omega, by rwa [runFor_succ ht]⟩
    · have hlen' : t.mem.length ≤ t.ip + 2 * n := by rw [step_mem_length ht]; omega
      rcases ih t hlen' with hend | ⟨k, hk, hst⟩
      · rw [runFor_succ ht]
        exact .inl hend
      · exact .inr ⟨k + 1, by omega, by rwa [runFor_succ ht]⟩

/-- `runFor_ends_or_gets_stuck` at the number of turns R73 gives. -/
theorem runBound_ends_or_gets_stuck (s : State) :
    ¬(runFor s.runBound s).Running ∨ ∃ k ≤ s.runBound, (runFor k s).Stuck :=
  runFor_ends_or_gets_stuck ((s.mem.length + 1) / 2) s (by omega)

theorem status_of_not_running {s : State} (h : ¬s.Running) : s.status = .halted ∨ s.status = .faulted := by
  cases hs : s.status with
  | running => exact absurd ((status_running s).1 hs) h
  | halted => exact .inl rfl
  | faulted => exact .inr rfl

/-- Settles O37: of the two ends of `runBound_ends_or_gets_stuck`, the premise leaves the first. -/
theorem runsEndWithinTheBound : Obligations.RunsEndWithinTheBound := by
  unfold Obligations.RunsEndWithinTheBound
  intro s hanswers
  rcases runBound_ends_or_gets_stuck s with hend | ⟨k, -, hst⟩
  · exact status_of_not_running hend
  · exact absurd hst (hanswers k)

/-! #### A stuck run stays where it is -/

theorem runFor_add (m k : Nat) (s : State) : runFor (k + m) s = runFor m (runFor k s) := by
  induction k generalizing s with
  | zero => rw [Nat.zero_add]; rfl
  | succ k ih =>
    obtain ⟨t, ht⟩ := step_total s
    rw [Nat.succ_add, runFor_succ ht, runFor_succ ht, ih]

theorem runFor_of_step_self {s : State} (h : step s = .next s) (n : Nat) : runFor n s = s := by
  induction n with
  | zero => rfl
  | succ n ih => rw [runFor_succ h, ih]

theorem step_keeps_waitsOnlyAtIn {s t : State} (hs : s.WaitsOnlyAtIn) (h : step s = .next t) : t.WaitsOnlyAtIn := by
  by_cases hr : s.Running
  · intro hw
    rcases step_outcome hr h with ⟨f, -, hn, -⟩ | ⟨-, hat, -⟩ | ⟨i, hc⟩
    · simp [hn] at hw
    · exact hat
    · simp [hc.not_waiting hs] at hw
  · obtain rfl := eq_of_step_of_not_running hr h
    exact hs

theorem runFor_keeps_waitsOnlyAtIn {s : State} (hs : s.WaitsOnlyAtIn) (n : Nat) : (runFor n s).WaitsOnlyAtIn :=
  runFor_induction (fun _ _ => step_keeps_waitsOnlyAtIn) n s hs

theorem runFor_of_stuck_before {s : State} (hs : s.WaitsOnlyAtIn) {k n : Nat} (hk : k ≤ n)
    (hst : (runFor k s).Stuck) : runFor n s = runFor k s := by
  have hstep : step (runFor k s) = .next (runFor k s) := step_of_stuck (runFor_keeps_waitsOnlyAtIn hs k) hst
  rw [← Nat.add_sub_cancel' hk, runFor_add, runFor_of_step_self hstep]

/-- Settles O38: a run that is not stuck has ended by `runBound_ends_or_gets_stuck`; one that was stuck on the way still
is, at the same IN. -/
theorem runEndsInExactlyOneOfThreeWays : Obligations.RunEndsInExactlyOneOfThreeWays := by
  unfold Obligations.RunEndsInExactlyOneOfThreeWays
  intro s hs
  rcases runBound_ends_or_gets_stuck s with hend | ⟨k, hk, hst⟩
  · have hnot : ¬(run s).Stuck := fun hst => hend hst.1
    exact (status_of_not_running hend).imp (⟨·, hnot⟩) fun hf => .inl ⟨hf, hnot⟩
  · have hrun : run s = runFor k s := runFor_of_stuck_before hs.waitsOnlyAtIn hk hst
    rw [hrun]
    obtain ⟨m1, m2, m3, -, hi, -⟩ := runFor_keeps_waitsOnlyAtIn hs.waitsOnlyAtIn k hst.2.1
    exact .inr (.inr ⟨(status_running _).2 hst.1, hst, m1, m2, m3, hi⟩)

end Sys2Proof.Machine
end

section
/-! ### The ALU's answer (R75, R76) -/

namespace Sys2Proof.Machine

/-- R75, R76: the ALU answers a word exactly in range, or by wrapping. -/
theorem narrow_ok_iff {op : AluOp} {s : State} {a b r : Int} :
    narrow op s a b = .ok r ↔
      (Word.InRange s.params.wordBits (op.exact a b) ∧ r = op.exact a b) ∨
        (¬Word.InRange s.params.wordBits (op.exact a b) ∧ s.params.overflow = .wrap ∧
          r = wrapWord s.params.wordBits (op.exact a b)) := by
  constructor
  · exact narrow_ok
  · rintro (⟨hin, rfl⟩ | ⟨hout, hw, rfl⟩)
    · exact narrow_of_inRange hin
    · exact narrow_of_overflow_wrap hout hw

theorem narrow_of_exact_eq {op : AluOp} {s : State} {a b v : Int} (h : op.exact a b = v)
    (hv : Word.InRange s.params.wordBits v) : narrow op s a b = .ok v :=
  narrow_ok_iff.2 (.inl ⟨by rwa [h], h.symm⟩)

theorem AluOp.exact_comm (op : AluOp) (a b : Int) : op.exact a b = op.exact b a := by
  cases op with
  | add => exact Int.add_comm a b
  | mul => exact Int.mul_comm a b

/-- R75: only the answers agree, not the fault records, which keep the operands in their order. -/
theorem narrow_ok_comm {op : AluOp} {s : State} {a b r : Int} :
    narrow op s a b = .ok r ↔ narrow op s b a = .ok r := by
  rw [narrow_ok_iff, narrow_ok_iff, op.exact_comm]

theorem aluMul_pos_of_neg_of_neg {s : State} {a b r : Int} (ha : a < 0) (hb : b < 0)
    (hin : Word.InRange s.params.wordBits (a * b)) (h : aluMul s a b = .ok r) : 0 < r := by
  have hab : aluMul s a b = .ok (a * b) := narrow_of_inRange (op := .mul) hin
  obtain rfl : a * b = r := Except.ok.inj (hab.symm.trans h)
  exact Int.mul_pos_of_neg_of_neg ha hb

/-- R76: the one product of a word and -1 that is no word. -/
theorem neg_half_mul_neg_one_not_inRange (W : Nat) : ¬Word.InRange W (-Word.half W * -1) := by
  rintro ⟨-, hle⟩
  omega

/-- Settles O12: each clause is one answer of `narrow` for addition or multiplication. -/
theorem aluNarrowsTheExactResult : Obligations.AluNarrowsTheExactResult := by
  unfold Obligations.AluNarrowsTheExactResult
  refine ⟨fun s a b => ⟨?_, ?_, ?_, ?_, ?_, ?_, ?_, ?_, ?_, ?_⟩, fun W x => ⟨rfl, ?_⟩⟩
  · exact narrow_of_inRange (op := .add)
  · exact narrow_of_overflow_fault (op := .add)
  · exact narrow_of_overflow_wrap (op := .add)
  · exact narrow_of_inRange (op := .mul)
  · exact narrow_of_overflow_fault (op := .mul)
  · exact narrow_of_overflow_wrap (op := .mul)
  · exact fun r => narrow_ok_comm (op := .add)
  · exact fun ha => ⟨narrow_of_exact_eq (op := .add) (Int.zero_add a) ha,
      narrow_of_exact_eq (op := .add) (Int.add_zero a) ha⟩
  · exact ⟨narrow_of_exact_eq (op := .mul) (Int.zero_mul a) (inRange_zero _),
      narrow_of_exact_eq (op := .mul) (Int.mul_zero a) (inRange_zero _)⟩
  · exact fun r ha hb hin h => aluMul_pos_of_neg_of_neg ha hb hin h
  · exact neg_half_mul_neg_one_not_inRange W

end Sys2Proof.Machine
end

section
/-! ### ADD and MUL whole (R77, R78) -/

namespace Sys2Proof.Machine

/-! #### Destinations as relations on memory (R60) -/

theorem resolveDst_of_targets {s : State} {slot : Nat} {m : Mode} {d : Int} (h : Targets s slot m d) :
    resolveDst s slot m = .ok d := by
  cases m with
  | immediate =>
    obtain ⟨hp, rfl⟩ := h
    exact resolveDst_immediate_of_permit hp slot
  | position => exact resolveDst_position_ok_iff.2 h

theorem resolveDst_of_targetFault {s : State} {slot : Nat} {m : Mode} {f : Fault} (h : TargetFault s slot m f) :
    resolveDst s slot m = .error f := by
  cases m with
  | immediate =>
    obtain ⟨hf, rfl⟩ := h
    exact resolveDst_immediate_of_fault hf slot
  | position => exact resolve_position_error_iff.2 h

/-! #### The faults after the destination is resolved -/

section

variable {s : State} {op : AluOp} {m1 m2 m3 : Mode} {a b d : Int}

theorem exec_aluInstr_of_alu_fault {f : Fault} (h1 : Reads s (s.ip + 1) m1 a) (h2 : Reads s (s.ip + 2) m2 b)
    (h3 : resolveDst s (s.ip + 3) m3 = .ok d) (hf : narrow op s a b = .error f) :
    exec (op.instr m1 m2 m3) s = .next (s.raise f) := by
  have hr1 := readOperand_ok_iff_reads.2 h1
  have hr2 := readOperand_ok_iff_reads.2 h2
  simp only [exec_aluInstr, binaryOp, State.slot_eq, hr1, hr2, h3, hf, State.complete]

theorem exec_aluInstr_of_destination_outside {r : Int} (h1 : Reads s (s.ip + 1) m1 a) (h2 : Reads s (s.ip + 2) m2 b)
    (h3 : resolveDst s (s.ip + 3) m3 = .ok d) (hr : narrow op s a b = .ok r) (hd : ¬(0 ≤ d ∧ d < s.mem.length)) :
    exec (op.instr m1 m2 m3) s = .next (s.raise (.bounds d s.ip)) := by
  have hr1 := readOperand_ok_iff_reads.2 h1
  have hr2 := readOperand_ok_iff_reads.2 h2
  have hw : memWrite s d r = .error (.bounds d s.ip) := memWrite_error_iff.2 ⟨hd, rfl⟩
  simp only [exec_aluInstr, binaryOp, State.slot_eq, hr1, hr2, h3, hr, hw, State.complete]

end

/-- Settles O13: one lemma for each line of R77's pseudocode that can fault, and one for the store. -/
theorem addAndMulFollowTheirRules : Obligations.AddAndMulFollowTheirRules := by
  unfold Obligations.AddAndMulFollowTheirRules
  intro op s m1 m2 m3
  refine ⟨by cases op <;> rfl, ?_, ?_, ?_, ?_⟩
  · exact fun i h1 => exec_aluInstr_of_source1_outside h1
  · exact fun a i h1 h2 => exec_aluInstr_of_source2_outside h1 h2
  · exact fun a b f h1 h2 h3 => exec_aluInstr_of_destination_fault h1 h2 (resolveDst_of_targetFault h3)
  · intro a b d x h1 h2 htarget hx
    have h3 := resolveDst_of_targets htarget
    obtain rfl : x = op.exact a b := by cases op <;> exact hx
    refine ⟨fun hout hf => ?_, fun r hr => ⟨fun hd => ?_, fun h0 hlt => ?_⟩⟩
    · exact exec_aluInstr_of_alu_fault h1 h2 h3 (narrow_of_overflow_fault hout hf)
    · exact exec_aluInstr_of_destination_outside h1 h2 h3 (narrow_ok_iff.2 hr) hd
    · exact exec_aluInstr_of_store h1 h2 h3 (narrow_ok_iff.2 hr) ⟨h0, hlt⟩

end Sys2Proof.Machine
end

section
/-! ### The decimal text of a value (R86) -/

namespace Sys2Proof.Machine

/-- R86: the characters of the digits 0 to 9. -/
def digitChars : Text := ['0', '1', '2', '3', '4', '5', '6', '7', '8', '9']

theorem digitChar_mem_digitChars : ∀ {d : Nat}, d < 10 → digitChar d ∈ digitChars := by decide

theorem digitChar_ne_zero : ∀ {d : Nat}, d < 10 → 0 < d → digitChar d ≠ '0' := by decide

theorem natDigits_of_lt_ten {n : Nat} (fuel : Nat) (h : n < 10) : natDigits (fuel + 1) n = [digitChar n] := if_pos h

theorem natDigits_of_ten_le {n : Nat} (fuel : Nat) (h : 10 ≤ n) :
    natDigits (fuel + 1) n = natDigits fuel (n / 10) ++ [digitChar (n % 10)] := if_neg (Nat.not_lt.2 h)

theorem mem_digitChars_of_mem_natDigits {fuel n : Nat} {c : Char} (hc : c ∈ natDigits fuel n) : c ∈ digitChars := by
  induction fuel generalizing n with
  | zero => cases hc
  | succ fuel ih =>
    rcases Nat.lt_or_ge n 10 with h | h
    · rw [natDigits_of_lt_ten fuel h, List.mem_singleton] at hc
      exact hc ▸ digitChar_mem_digitChars h
    · rw [natDigits_of_ten_le fuel h, List.mem_append, List.mem_singleton] at hc
      rcases hc with hc | rfl
      · exact ih hc
      · exact digitChar_mem_digitChars (Nat.mod_lt n (by decide))

/-- R86: no leading zero.  The first digit of a number of two or more digits is the first digit of its tenth, which is
positive and which a fuel one less covers. -/
theorem natDigits_eq_cons {fuel n : Nat} (hpos : 0 < n) (hfuel : n < fuel) :
    ∃ c ds, natDigits fuel n = c :: ds ∧ c ≠ '0' := by
  induction fuel generalizing n with
  | zero => omega
  | succ fuel ih =>
    rcases Nat.lt_or_ge n 10 with h | h
    · exact ⟨digitChar n, [], natDigits_of_lt_ten fuel h, digitChar_ne_zero h hpos⟩
    · obtain ⟨c, ds, heq, hc⟩ := ih (n := n / 10) (by omega) (by omega)
      exact ⟨c, ds ++ [digitChar (n % 10)], by rw [natDigits_of_ten_le fuel h, heq, List.cons_append], hc⟩

theorem decimal_of_nonneg {v : Int} (h : 0 ≤ v) : decimal v = natDigits (v.natAbs + 1) v.natAbs :=
  if_neg (Int.not_lt.2 h)

theorem decimal_of_neg {v : Int} (h : v < 0) : decimal v = '-' :: decimal (-v) := by
  rw [decimal_of_nonneg (by omega : 0 ≤ -v), Int.natAbs_neg]
  exact if_pos h

/-- Settles O40: `decimal_of_neg` for the sign, `natDigits_eq_cons` for the first digit of a positive value. -/
theorem decimalTextIsCanonical : Obligations.DecimalTextIsCanonical := by
  unfold Obligations.DecimalTextIsCanonical
  refine ⟨rfl, fun v hv => decimal_of_neg hv, fun v hv => ?_⟩
  have htext := decimal_of_nonneg hv.le
  obtain ⟨c, ds, heq, hc⟩ := natDigits_eq_cons (Int.natAbs_pos.2 hv.ne') (Nat.lt_succ_self v.natAbs)
  exact ⟨c, ds, htext.trans heq, hc, fun x hx => mem_digitChars_of_mem_natDigits (heq ▸ hx)⟩

end Sys2Proof.Machine
end

section
/-! ### HALT (R89) -/

namespace Sys2Proof

/-- R52, R55: the fields of the word the encoder writes are the opcode and the mode digits it was made of. -/
theorem decodeWord_encodeWord (i : Instr) : decodeWord (encodeWord i) = .ok i := by
  have hop : 0 ≤ i.opcode ∧ i.opcode ≤ 99 := by cases i <;> simp [Instr.opcode]
  have h1 := Laws.WordFits.mode_le i.modes.1
  have h2 := Laws.WordFits.mode_le i.modes.2.1
  have h3 := Laws.WordFits.mode_le i.modes.2.2
  have hw : 0 ≤ encodeWord i := by unfold encodeWord; omega
  rw [decodeWord_ok_iff, opcodeOf_of_nonneg hw, digit_of_nonneg hw, digit_of_nonneg hw, digit_of_nonneg hw, encodeWord]
  omega

end Sys2Proof

namespace Sys2Proof.Machine

/-- R67: a running machine that fetches an encoded instruction executes that instruction. -/
theorem step_of_encodeWord {s : State} {i : Instr} (hr : s.Running) (hw : s.mem[s.ip]? = some (encodeWord i)) :
    step s = exec i s :=
  step_of_fetch_ok hr (fetch_ok_iff.2 ⟨_, hw, decodeWord_encodeWord i⟩)

theorem exec_halt (m1 m2 m3 : Mode) (s : State) : exec (.halt m1 m2 m3) s = .next s.setHalted := rfl

/-- Settles O16: by `exec_halt` and `step_of_encodeWord`, and 20099 by its third mode digit. -/
theorem haltFollowsItsRule : Obligations.HaltFollowsItsRule := by
  unfold Obligations.HaltFollowsItsRule
  intro m1 m2 m3
  refine ⟨rfl, exec_halt m1 m2 m3, fun s hr hw => ?_, fun s hr hw => ?_⟩
  · exact (step_of_encodeWord hr hw).trans (exec_halt m1 m2 m3 s)
  · have hbad : decodeWord 20099 = .error (.unknownMode 20099 3 2) :=
      decodeWord_of_bad_mode3 (by decide) (by decide) (by decide) (by decide)
    exact step_of_decode_error hr hw hbad

end Sys2Proof.Machine
end

section
/-! ### Construction and the empty image (R111, R113, R116) -/

namespace Sys2Proof.Machine

/-- R116: a word out of range refuses the image; a width the model does not accept is refused before it looks there. -/
theorem construct_of_word_outside {p : Params} {image : List Int} (hp : p.wf = true)
    (h : ∃ v ∈ image, ¬Word.InRange p.wordBits v) : construct p image = .refused .imageWordOutOfRange := by
  obtain ⟨v, hv, hout⟩ := h
  have himage : wordsInRange p.wordBits image = false :=
    Bool.eq_false_iff.2 fun hall => hout (wordsInRange_iff.1 hall v hv)
  simp [construct, hp, himage]

/-- R111: the constructed machine has neither halted nor faulted. -/
theorem State.constructed_running (p : Params) (image : List Int) : (State.constructed p image).Running := ⟨rfl, rfl⟩

/-- Settles O33: `construct_next_iff` for an image of words, `construct_of_word_outside` for any other. -/
theorem constructionSetsTheLaunchState : Obligations.ConstructionSetsTheLaunchState := by
  unfold Obligations.ConstructionSetsTheLaunchState
  intro p image hp
  refine ⟨fun hwords => ?_, construct_of_word_outside hp⟩
  exact ⟨State.constructed p image, construct_next_iff.2 ⟨hp, wordsInRange_iff.2 hwords, rfl⟩, rfl, rfl, rfl, rfl, rfl,
    (status_running _).2 (State.constructed_running p image)⟩

/-- Settles O34: the constructed machine runs with `ip` 0 outside a memory of no words, so its fetch faults; no IN is in
flight, so the fault record is all that changes. -/
theorem emptyImageFaultsAtIndexZero : Obligations.EmptyImageFaultsAtIndexZero := by
  unfold Obligations.EmptyImageFaultsAtIndexZero
  intro p hp
  have hfetch : fetch (State.constructed p []) = .error (.bounds 0 0) := fetch_of_outside (Nat.le_refl 0)
  exact ⟨State.constructed p [], construct_next_iff.2 ⟨hp, rfl, rfl⟩,
    step_of_fetch_error (State.constructed_running p []) hfetch⟩

end Sys2Proof.Machine
end

section
/-! ### The words of an instruction (R57, R63, R64) -/

namespace Sys2Proof

theorem Assembled.length_params_of_wf {W : Nat} {a : Assembled} (h : a.wf W = true) :
    a.params.length = a.instr.arity :=
  beq_iff_eq.1 ((Bool.and_eq_true _ _).mp h).1

/-- R57: a word that decodes takes as many of the words after it as its format has parameters. -/
theorem decodeWords_cons_of_ok {w : Int} {i : Instr} (hw : decodeWord w = .ok i) {ps : List Int}
    (hps : ps.length = i.arity) (rest : List Int) : decodeWords (w :: (ps ++ rest)) = some (⟨i, ps⟩, rest) := by
  have hlen : ps.length ≤ (ps ++ rest).length := by simp
  simp only [decodeWords, hw, ← hps, if_pos hlen, List.take_left, List.drop_left]

/-- Settles O1: the encoder's word decodes to the instruction, whose arity says how many words to take. -/
theorem decodeOfEncodedInstruction : Obligations.DecodeOfEncodedInstruction := by
  unfold Obligations.DecodeOfEncodedInstruction
  intro W a rest ha
  exact decodeWords_cons_of_ok (decodeWord_encodeWord a.instr) (Assembled.length_params_of_wf ha) rest

theorem encodeWord_inRange (i : Instr) {W : Nat} (hW : 15 ≤ W) : Word.InRange W (encodeWord i) := by
  have hop : 0 ≤ i.opcode ∧ i.opcode ≤ 99 := by cases i <;> simp [Instr.opcode]
  exact Laws.WordFits.of_opcode hop.1 hop.2 W hW

/-- Settles O6: `encodeWord_inRange` for the widths R6 allows, and 11199, the greatest word of HALT, for width 14. -/
theorem fifteenBitsHoldEveryInstructionWord : Obligations.FifteenBitsHoldEveryInstructionWord := by
  unfold Obligations.FifteenBitsHoldEveryInstructionWord
  exact ⟨fun i _ hW => encodeWord_inRange i hW, .halt .immediate .immediate .immediate, by decide⟩

/-- Settles O7: five words are the encoder's, 100001 differs from one in digit 5 alone, and the last two fail R54's
checks of the third mode and of the opcode. -/
theorem wordsWrittenOutDecode : Obligations.WordsWrittenOutDecode := by
  unfold Obligations.WordsWrittenOutDecode
  refine ⟨decodeWord_encodeWord (.add .immediate .immediate .immediate),
    decodeWord_encodeWord (.mul .position .immediate .position),
    decodeWord_encodeWord (.inp .position .position .immediate),
    decodeWord_encodeWord (.out .immediate .position .position),
    decodeWord_encodeWord (.halt .immediate .position .position), ?_,
    decodeWord_of_bad_mode3 (by decide) (by decide) (by decide) (by decide),
    decodeWord_of_unknown_opcode (by decide)⟩
  have hlow : decodeWord 1 = .ok (.add .position .position .position) :=
    decodeWord_encodeWord (.add .position .position .position)
  exact (decodeWord_add_high (w := 1) (by decide) 1).trans (by rw [hlow]; rfl)

end Sys2Proof
end

section
/-! ### The wrap (R10) -/

namespace Sys2Proof.Machine

theorem half_add_half {W : Nat} (hW : 1 ≤ W) : Word.half W + Word.half W = ((2 ^ W : Nat) : Int) := by
  obtain ⟨n, rfl⟩ := Nat.exists_eq_add_of_le' hW
  simp only [Word.half, Nat.add_sub_cancel, pow_succ]
  omega

/-- The word range is that of the remainders modulo 2^W, moved down by half of it. -/
theorem inRange_iff_of_one_le {W : Nat} (hW : 1 ≤ W) {r : Int} :
    Word.InRange W r ↔ 0 ≤ r + Word.half W ∧ r + Word.half W < ((2 ^ W : Nat) : Int) := by
  rw [← half_add_half hW, Word.InRange]
  omega

theorem wrapWord_inRange {W : Nat} (hW : 1 ≤ W) (x : Int) : Word.InRange W (wrapWord W x) := by
  have hpos : (0 : Int) < ((2 ^ W : Nat) : Int) := Int.natCast_pos.2 (Nat.two_pow_pos W)
  rw [inRange_iff_of_one_le hW, wrapWord, Int.sub_add_cancel]
  exact ⟨Int.emod_nonneg _ hpos.ne', Int.emod_lt_of_pos _ hpos⟩

theorem dvd_sub_wrapWord (W : Nat) (x : Int) : ((2 ^ W : Nat) : Int) ∣ x - wrapWord W x := by
  have hx : x - wrapWord W x = x + Word.half W - (x + Word.half W) % ((2 ^ W : Nat) : Int) := by
    rw [wrapWord]
    omega
  rw [hx]
  exact Int.dvd_self_sub_emod

theorem eq_wrapWord_of_dvd_sub {W : Nat} (hW : 1 ≤ W) {x r : Int} (hr : Word.InRange W r)
    (hdvd : ((2 ^ W : Nat) : Int) ∣ x - r) : r = wrapWord W x := by
  obtain ⟨h0, hlt⟩ := (inRange_iff_of_one_le hW).1 hr
  have hmod : (x + Word.half W) % ((2 ^ W : Nat) : Int) = (r + Word.half W) % ((2 ^ W : Nat) : Int) :=
    Int.emod_eq_emod_iff_emod_sub_eq_zero.2 (Int.emod_eq_zero_of_dvd (by rwa [add_sub_add_right_eq_sub]))
  rw [wrapWord, hmod, Int.emod_eq_of_lt h0 hlt, Int.add_sub_cancel]

/-- Settles O11: by the remainder's range, its congruence and its uniqueness. -/
theorem wrapIsTheCongruentWord : Obligations.WrapIsTheCongruentWord := by
  unfold Obligations.WrapIsTheCongruentWord
  exact fun W x hW => ⟨wrapWord_inRange hW x, dvd_sub_wrapWord W x, fun _ => eq_wrapWord_of_dvd_sub hW⟩

/-- R6, R75, R76: whatever OVERFLOW_MODE, what the ALU answers is a word. -/
theorem narrow_ok_inRange {op : AluOp} {s : State} {a b r : Int} (hW : 1 ≤ s.params.wordBits)
    (h : narrow op s a b = .ok r) : Word.InRange s.params.wordBits r := by
  rcases narrow_ok h with ⟨hin, rfl⟩ | ⟨-, -, rfl⟩
  · exact hin
  · exact wrapWord_inRange hW _

end Sys2Proof.Machine
end

section
/-! ### The invariant (R6, R17, R21, R26, R27, R80, R89, R98, R102) -/

namespace Sys2Proof.Machine

/-! #### The words a state holds -/

/-- Memory, answers and events hold words of a width R6 allows. -/
structure AllWords (p : Params) (mem : Memory) (inputs : List InAnswer) (events : List OutEvent) : Prop where
  params_wf : p.wf = true
  mem_wf : Memory.wf p.wordBits mem = true
  inputs_words : ∀ a ∈ inputs, a.IsWord p.wordBits
  events_words : ∀ e ∈ events, e.IsWord p.wordBits

/-- The part of `State.Inv` about words.  It speaks of four fields alone, so an update of the others keeps it as it
stands. -/
abbrev State.HoldsWords (s : State) : Prop := AllWords s.params s.mem s.inputs s.events

theorem State.Inv.holdsWords {s : State} (hs : s.Inv) : s.HoldsWords :=
  ⟨hs.params_wf, hs.mem_wf, hs.inputs_words, hs.events_words⟩

theorem one_le_of_params_wf {p : Params} (h : p.wf = true) : 1 ≤ p.wordBits := by
  have h15 : 15 ≤ p.wordBits := of_decide_eq_true h
  omega

section

variable {s : State} (hs : s.HoldsWords)
include hs

theorem State.HoldsWords.store {d v : Int} {m : Memory} (hv : Word.InRange s.params.wordBits v)
    (hm : Memory.write s.mem d v = some m) (n : Nat) : State.HoldsWords { s with mem := m, ip := n } :=
  { hs with mem_wf := Memory.wf_write hs.mem_wf hv hm }

theorem State.HoldsWords.sent {e : OutEvent} (he : e.IsWord s.params.wordBits) : (s.sent e).HoldsWords := by
  refine { hs with events_words := fun x hx => ?_ }
  rcases List.mem_append.1 hx with hx | hx
  · exact hs.events_words x hx
  · exact List.mem_singleton.1 hx ▸ he

theorem State.HoldsWords.takeInput {a : InAnswer} {rest : List InAnswer} (h : s.inputs = a :: rest) :
    (s.takeInput rest).HoldsWords :=
  { hs with inputs_words := fun x hx => hs.inputs_words x (h ▸ List.mem_cons_of_mem a hx) }

theorem State.HoldsWords.narrow_inRange {op : AluOp} {a b r : Int} (h : narrow op s a b = .ok r) :
    Word.InRange s.params.wordBits r :=
  narrow_ok_inRange (one_le_of_params_wf hs.params_wf) h

theorem State.HoldsWords.readOperand_inRange {slot : Nat} {m : Mode} {v : Int} (h : readOperand s slot m = .ok v) :
    Word.InRange s.params.wordBits v := by
  obtain ⟨a, -, hv⟩ := readOperand_ok_iff.1 h
  exact Memory.wf_read hs.mem_wf hv

end

/-! #### The invariant of a running, a faulted and a halted state -/

theorem State.Inv.count_prompt {s : State} (hs : s.Inv) (hf : s.fault = none) :
    s.events.count .prompt = s.requests :=
  hs.prompts_requests.1 (not_promptFailed_of_fault_none hf)

/-- Of a running state the invariant says nothing about halting and faults. -/
theorem State.inv_of_running {s : State} (hr : s.Running) (hwords : s.HoldsWords) (hwait : s.WaitsOnlyAtIn)
    (hcount : s.events.count .prompt = s.requests) : s.Inv where
  params_wf := hwords.params_wf
  mem_wf := hwords.mem_wf
  inputs_words := hwords.inputs_words
  events_words := hwords.events_words
  not_both := fun _ => hr.2
  fault_ip := by simp [hr.2]
  halted_at_halt := by simp [hr.1]
  waiting_in := fun hw => ⟨hr, hwait hw⟩
  prompts_requests := ⟨fun _ => hcount, fun hp => absurd hp (not_promptFailed_of_fault_none hr.2)⟩

/-- R92: a fault taken clears the wait, so that its record and the prompts are all there is to show. -/
theorem State.inv_raise {s : State} {f : Fault} (hr : s.Running) (hwords : s.HoldsWords) (hip : f.ip = s.ip)
    (hprompts : (¬(s.raise f).PromptFailed → s.events.count .prompt = s.requests) ∧
      ((s.raise f).PromptFailed → s.events.count .prompt = s.requests + 1)) : (s.raise f).Inv where
  params_wf := hwords.params_wf
  mem_wf := hwords.mem_wf
  inputs_words := hwords.inputs_words
  events_words := hwords.events_words
  not_both := by simp [hr.1]
  fault_ip := by simp [hip]
  halted_at_halt := by simp [hr.1]
  waiting_in := by simp
  prompts_requests := hprompts

theorem raise_promptFailed_iff {s : State} {f : Fault} :
    (s.raise f).PromptFailed ↔ f.ofOutput = true ∧ ∃ m1 m2 m3, fetch s = .ok (.inp m1 m2 m3) :=
  and_congr_left' ⟨fun ⟨_, hg, ho⟩ => Option.some.inj hg ▸ ho, fun ho => ⟨f, rfl, ho⟩⟩

/-- A fault that is not the output port's leaves one prompt for each request. -/
theorem State.inv_raise_of_not_ofOutput {s : State} {f : Fault} (hr : s.Running) (hwords : s.HoldsWords)
    (hcount : s.events.count .prompt = s.requests) (hip : f.ip = s.ip) (ho : f.ofOutput = false) :
    (s.raise f).Inv :=
  State.inv_raise hr hwords hip ⟨fun _ => hcount, fun hp => absurd (raise_promptFailed_iff.1 hp).1 (by simp [ho])⟩

/-- R89: the halted machine stands at the HALT it ran, where no IN is in flight. -/
theorem State.Inv.setHalted {s : State} {m1 m2 m3 : Mode} (hs : s.Inv) (hr : s.Running)
    (hi : fetch s = .ok (.halt m1 m2 m3)) : s.setHalted.Inv where
  params_wf := hs.params_wf
  mem_wf := hs.mem_wf
  inputs_words := hs.inputs_words
  events_words := hs.events_words
  not_both := fun _ => hr.2
  fault_ip := hs.fault_ip
  halted_at_halt := fun _ => ⟨m1, m2, m3, hi⟩
  waiting_in := fun hw => by
    obtain ⟨n1, n2, n3, -, hin, -⟩ := hs.waitsOnlyAtIn hw
    simp [hi] at hin
  prompts_requests := hs.prompts_requests

/-! #### The port events of IN and OUT -/

/-- R80: the prompt and its request are sent and made together. -/
theorem promptAndRequest_ok_keeps {s u : State} (h : promptAndRequest s = (.ok, u)) (hwords : s.HoldsWords)
    (hcount : s.events.count .prompt = s.requests) : u.HoldsWords ∧ u.events.count .prompt = u.requests := by
  rcases promptAndRequest_ok h with ⟨-, rfl⟩ | ⟨-, -, rfl⟩
  · exact ⟨hwords, hcount⟩
  · exact ⟨hwords.sent (e := .prompt) trivial, by simp [hcount]⟩

/-- R26, R80: the answer stored is a word, and a fault on it is not the output port's. -/
theorem receive_inv {d : Int} {u : State} (hr : u.Running) (hwords : u.HoldsWords)
    (hcount : u.events.count .prompt = u.requests) (hwait : (receive d u).WaitsOnlyAtIn) : (receive d u).Inv := by
  rcases receive_cases d u with ⟨-, h⟩ | ⟨v, rest, m, hin, hm, h⟩ | ⟨a, rest, f, hin, ⟨hip, ho⟩, h⟩
  · rw [h] at hwait ⊢
    exact State.inv_of_running hr hwords hwait hcount
  · have hv : Word.InRange u.params.wordBits v := hwords.inputs_words (.value v) (hin ▸ List.mem_cons_self)
    rw [h] at hwait ⊢
    exact State.inv_of_running hr ((hwords.takeInput hin).store hv hm _) hwait hcount
  · rw [h]
    exact State.inv_raise_of_not_ofOutput (s := u.takeInput rest) hr (hwords.takeInput hin) hcount hip ho

/-- R80, R98: the prompt the output port fails is the one prompt without a request. -/
theorem sent_prompt_raise_inv {s : State} {m1 m2 m3 : Mode} (hr : s.Running) (hwords : s.HoldsWords)
    (hcount : s.events.count .prompt = s.requests) (hi : fetch s = .ok (.inp m1 m2 m3)) :
    ((s.sent .prompt).raise (.ioError .output s.ip)).Inv := by
  have hfailed : ((s.sent .prompt).raise (.ioError .output s.ip)).PromptFailed :=
    raise_promptFailed_iff.2 ⟨rfl, m1, m2, m3, hi⟩
  exact State.inv_raise (s := s.sent .prompt) hr (hwords.sent trivial) rfl
    ⟨fun hn => absurd hfailed hn, fun _ => by simp [hcount]⟩

theorem sent_value_raise_inv {s : State} {m1 m2 m3 : Mode} {v : Int} (hr : s.Running) (hwords : s.HoldsWords)
    (hcount : s.events.count .prompt = s.requests) (hi : fetch s = .ok (.out m1 m2 m3))
    (hv : Word.InRange s.params.wordBits v) : ((s.sent (.value v)).raise (.ioError .output s.ip)).Inv := by
  refine State.inv_raise (s := s.sent (.value v)) hr (hwords.sent hv) rfl ⟨fun _ => by simp [hcount], fun hp => ?_⟩
  obtain ⟨-, n1, n2, n3, hin⟩ := raise_promptFailed_iff.1 hp
  simp [show fetch (s.sent (.value v)) = fetch s from rfl, hi] at hin

theorem step_keeps_inv {s t : State} (hs : s.Inv) (h : step s = .next t) : t.Inv := by
  by_cases hr : s.Running
  · have hwords := hs.holdsWords
    have hcount := hs.count_prompt hr.2
    have hwait : t.WaitsOnlyAtIn := step_keeps_waitsOnlyAtIn hs.waitsOnlyAtIn h
    rcases step_cases hr h with ⟨f, ⟨hip, ho⟩, rfl⟩ |
      ⟨op, m1, m2, m3, a, b, d, r, m, -, -, -, -, hres, hm, rfl⟩ |
      ⟨m1, m2, m3, d, u, -, -, hu, rfl⟩ | ⟨m1, m2, m3, v, -, hv, -, rfl⟩ |
      ⟨m1, m2, m3, hi, rfl⟩ |
      ⟨e, -, rfl, ⟨m1, m2, m3, d, rfl, -, hi, -⟩ | ⟨m1, m2, m3, v, rfl, hi, hv⟩⟩
    · exact State.inv_raise_of_not_ofOutput hr hwords hcount hip ho
    · exact State.inv_of_running hr (hwords.store (hwords.narrow_inRange hres) hm _) hwait hcount
    · obtain ⟨-, -, hf, hh⟩ := promptAndRequest_ok_frame hu
      obtain ⟨huwords, hucount⟩ := promptAndRequest_ok_keeps hu hwords hcount
      exact receive_inv ⟨hh.trans hr.1, hf.trans hr.2⟩ huwords hucount hwait
    · have hsent := hwords.sent (e := .value v) (hwords.readOperand_inRange hv)
      exact State.inv_of_running hr hsent hwait (by simp [hcount])
    · exact hs.setHalted hr hi
    · exact sent_prompt_raise_inv hr hwords hcount hi
    · exact sent_value_raise_inv hr hwords hcount hi (hwords.readOperand_inRange hv)
  · obtain rfl := eq_of_step_of_not_running hr h
    exact hs

/-- Settles O36: `step_keeps_inv`, which takes one step's outcomes in turn. -/
theorem everyStepKeepsTheInvariant : Obligations.EveryStepKeepsTheInvariant := by
  unfold Obligations.EveryStepKeepsTheInvariant
  exact fun _ _ => step_keeps_inv

theorem runFor_keeps_inv {s : State} (hs : s.Inv) (n : Nat) : (runFor n s).Inv :=
  runFor_induction (fun _ _ => step_keeps_inv) n s hs

/-! #### The states a run starts from (R30, R111, R124) -/

theorem State.launched_inv {p : Params} {image : List Int} {answers : List InAnswer} (left : Option Nat)
    (hp : p.wf = true) (himage : wordsInRange p.wordBits image = true)
    (hanswers : ∀ a ∈ answers, a.IsWord p.wordBits) : (State.launched p image answers left).Inv :=
  State.inv_of_running ⟨rfl, rfl⟩ ⟨hp, himage, hanswers, by simp⟩ (fun hw => by simp at hw) rfl

/-- Settles O35: the reset machine is the launched one with the default parameters, no image and no answers. -/
theorem constructionMeetsTheInvariant : Obligations.ConstructionMeetsTheInvariant := by
  unfold Obligations.ConstructionMeetsTheInvariant
  refine ⟨construct_next_iff.2 ⟨rfl, rfl, rfl⟩, State.launched_inv (answers := []) none rfl rfl (by simp), ?_⟩
  intro p image answers left s hs hanswers
  obtain ⟨hp, himage, rfl⟩ := startRun_next_iff.1 hs
  exact State.launched_inv left hp himage hanswers

/-- Settles O44: `startRun_next_iff` for an image of words; for any other, construction refuses and no run starts. -/
theorem runsStartFromTheLaunchPremisesAlone : Obligations.RunsStartFromTheLaunchPremisesAlone := by
  unfold Obligations.RunsStartFromTheLaunchPremisesAlone
  intro p image answers left hp
  refine ⟨fun hwords => startRun_next_iff.2 ⟨hp, wordsInRange_iff.2 hwords, rfl⟩, fun hout => ?_⟩
  rw [startRun, construct_of_word_outside hp hout]

/-! #### The normal end of a run (R118, R123) -/

/-- Settles O39: the invariant at the end of the run, whose fetch is then of a HALT word. -/
theorem normalEndStandsOnAHaltWord : Obligations.NormalEndStandsOnAHaltWord := by
  unfold Obligations.NormalEndStandsOnAHaltWord
  intro s n hs hend
  have ht := runFor_keeps_inv hs n
  obtain ⟨hf, hh⟩ := (status_halted _).1 hend
  obtain ⟨m1, m2, m3, hi⟩ := ht.halted_at_halt hh
  obtain ⟨w, hw, hd⟩ := fetch_ok_iff.1 hi
  obtain ⟨hlt, -⟩ := List.getElem?_eq_some_iff.1 hw
  exact ⟨hf, runFor_mem_length n s ▸ hlt, ⟨w, m1, m2, m3, hw, hd⟩, ht.count_prompt hf⟩

end Sys2Proof.Machine
end

section
/-! ### IN and OUT whole (R62, R80, R81) -/

namespace Sys2Proof.Machine

/-- Settles O17: the dispatch of R67 hands IN and OUT their first mode alone, and HALT none. -/
theorem unusedModesHaveNoEffect : Obligations.UnusedModesHaveNoEffect := by
  unfold Obligations.UnusedModesHaveNoEffect
  exact fun _ _ _ _ _ _ _ => ⟨rfl, rfl, rfl⟩

/-- R27: a port that fails has no answers left to count down. -/
theorem sent_of_outLeft_zero {s : State} (h : s.outLeft = some 0) (e : OutEvent) :
    s.sent e = { s with events := s.events ++ [e] } := by
  simp [State.sent, h]

/-! #### OUT -/

section

variable {s : State} {m1 m2 m3 : Mode}

theorem exec_out_of_source_fault {f : Fault} (h : readOperand s (s.ip + 1) m1 = .error f) :
    exec (.out m1 m2 m3) s = .next (s.raise f) := by
  simp only [exec, execOut, State.slot_eq, h]

theorem exec_out_of_port_failed {v : Int} (h : readOperand s (s.ip + 1) m1 = .ok v) (ho : s.outLeft = some 0) :
    exec (.out m1 m2 m3) s = .next ((s.sent (.value v)).raise (.ioError .output s.ip)) := by
  simp only [exec, execOut, State.slot_eq, h, outPort_of_ioError ho, State.sent_ip]

theorem exec_out_of_outputOk {v : Int} (h : readOperand s (s.ip + 1) m1 = .ok v) (ho : s.OutputOk) :
    exec (.out m1 m2 m3) s = .next ((s.sent (.value v)).advance 2) := by
  simp only [exec, execOut, State.slot_eq, h, outPort_of_ok ho]

end

/-- Settles O15: one lemma for each way R81 can end. -/
theorem outFollowsItsRule : Obligations.OutFollowsItsRule := by
  unfold Obligations.OutFollowsItsRule
  intro s m1 m2 m3
  refine ⟨rfl, fun i h => ?_, fun v h => ⟨fun ho => ?_, fun ho => ?_⟩⟩
  · exact exec_out_of_source_fault (readOperand_error_iff_readsOutside.2 ⟨i, h, rfl⟩)
  · rw [exec_out_of_port_failed (readOperand_ok_iff_reads.2 h) ho, sent_of_outLeft_zero ho]
    rfl
  · exact exec_out_of_outputOk (readOperand_ok_iff_reads.2 h) ho

/-! #### IN -/

theorem promptAndRequest_of_port_failed {s : State} (hw : s.waiting = false) (ho : s.outLeft = some 0) :
    promptAndRequest s = (.ioError, s.sent .prompt) := by
  simp [promptAndRequest, hw, outPort_of_ioError ho]

theorem promptAndRequest_of_sent {s : State} (hw : s.waiting = false) (ho : s.OutputOk) :
    promptAndRequest s = (.ok, (s.sent .prompt).request) := by
  simp [promptAndRequest, hw, outPort_of_ok ho]

theorem exec_inp_of_port_failed {s : State} {m1 : Mode} {d : Int} (m2 m3 : Mode)
    (hd : resolveDst s (s.ip + 1) m1 = .ok d) (hw : s.waiting = false) (ho : s.outLeft = some 0) :
    exec (.inp m1 m2 m3) s = .next ((s.sent .prompt).raise (.ioError .output s.ip)) := by
  simp only [exec, execIn, State.slot_eq, hd, promptAndRequest_of_port_failed hw ho, State.sent_ip]

/-- `u` is `s` but for the wait once IN has sent its prompt and made its request: now, or before by an IN in flight. -/
def State.PromptedAs (s u : State) : Prop :=
  (s.waiting = false ∧ s.OutputOk ∧ u = { s with
    events := s.events ++ [.prompt], outLeft := s.outLeft.map (· - 1), requests := s.requests + 1 }) ∨
  (s.waiting = true ∧ u = s)

theorem State.PromptedAs.frame {s u : State} (h : s.PromptedAs u) :
    u.mem = s.mem ∧ u.ip = s.ip ∧ u.inputs = s.inputs := by
  rcases h with ⟨-, -, rfl⟩ | ⟨-, rfl⟩ <;> exact ⟨rfl, rfl, rfl⟩

theorem State.PromptedAs.promptAndRequest_eq {s u : State} (h : s.PromptedAs u) :
    promptAndRequest s = (.ok, { u with waiting := true }) := by
  rcases h with ⟨hw, ho, rfl⟩ | ⟨hw, rfl⟩
  · exact promptAndRequest_of_sent hw ho
  · rw [promptAndRequest_of_waiting hw, ← hw]

/-- Settles O14: the faults before the request by a lemma each, and what follows it by the answer `receive` finds. -/
theorem inFollowsItsRule : Obligations.InFollowsItsRule := by
  unfold Obligations.InFollowsItsRule
  intro s m1 m2 m3
  refine ⟨rfl, fun f h => exec_inp_of_destination_fault m2 m3 (resolveDst_of_targetFault h), fun d htarget => ?_⟩
  have hd := resolveDst_of_targets htarget
  refine ⟨fun hw ho => ?_, fun u (hu : s.PromptedAs u) => ?_⟩
  · rw [exec_inp_of_port_failed m2 m3 hd hw ho, sent_of_outLeft_zero ho, State.raise, ← hw]
  · obtain ⟨hmem, hip, hinputs⟩ := hu.frame
    rw [exec_inp_of_prompted m2 m3 hd hu.promptAndRequest_eq, ← hmem, ← hip, ← hinputs]
    refine ⟨fun hin => ?_, fun rest hin => ?_, fun line rest hin => ?_,
      fun v rest hin => ⟨fun hout => ?_, fun h0 hlt => ?_⟩⟩
    · exact congrArg Host.Outcome.next (receive_nil hin)
    · exact congrArg Host.Outcome.next (receive_ioError hin)
    · exact congrArg Host.Outcome.next (receive_formatError hin)
    · exact congrArg Host.Outcome.next (receive_value_outside hin hout)
    · exact congrArg Host.Outcome.next (receive_value hin ⟨h0, hlt⟩)

end Sys2Proof.Machine
end

section
/-! ### What a step stores (R41, R44, R69) -/

namespace Sys2Proof.Machine

/-- R41: a step leaves memory as it is, or completes the one store of the instruction it fetched. -/
theorem step_mem {s t : State} (h : step s = .next t) :
    t.mem = s.mem ∨ ∃ i d v, fetch s = .ok i ∧ storeAddress s i = some d ∧ Memory.write s.mem d v = some t.mem ∧
      t.fault = s.fault := by
  by_cases hr : s.Running
  · rcases step_cases hr h with ⟨f, -, rfl⟩ |
      ⟨op, m1, m2, m3, a, b, d, r, m, hi, -, -, hd, -, hm, rfl⟩ |
      ⟨m1, m2, m3, d, u, hi, hd, hu, rfl⟩ | ⟨m1, m2, m3, v, -, -, -, rfl⟩ |
      ⟨m1, m2, m3, -, rfl⟩ | ⟨e, -, rfl, -⟩
    case inr.inl =>
      exact .inr ⟨_, d, r, hi, by cases op <;> simp only [AluOp.instr, storeAddress, hd, Except.toOption], hm, rfl⟩
    case inr.inr.inl =>
      have humem := promptAndRequest_ok_mem hu
      obtain ⟨-, -, hufault, -⟩ := promptAndRequest_ok_frame hu
      rcases receive_cases d u with ⟨-, h⟩ | ⟨v, rest, m, -, hm, h⟩ | ⟨a, rest, f, -, -, h⟩ <;> rw [h]
      · exact .inl humem
      · exact .inr ⟨_, d, v, hi, by simp only [storeAddress, hd, Except.toOption], humem ▸ hm, hufault⟩
      · exact .inl humem
    all_goals exact .inl rfl
  · exact .inl (congrArg State.mem (eq_of_step_of_not_running hr h))

/-- Settles O18: the store of `step_mem`, if there is one, is at the instruction's address and takes no fault. -/
theorem stepStoresOnlyWhereItsInstructionSays : Obligations.StepStoresOnlyWhereItsInstructionSays := by
  unfold Obligations.StepStoresOnlyWhereItsInstructionSays
  intro s t h
  rcases step_mem h with hmem | ⟨i, d, v, hi, hd, hm, hfault⟩
  · exact ⟨fun _ _ _ _ => by rw [hmem], fun _ _ => hmem, fun _ _ => hmem⟩
  · refine ⟨fun j hj a ha => ?_, fun f hf => ?_, fun hs ht => absurd (hfault.trans hs) ht⟩
    · obtain rfl : i = j := Except.ok.inj (hi.symm.trans hj)
      exact Memory.read_write_other hm fun had => ha (had ▸ hd)
    · simp [hi] at hf

/-- Settles O20: the store is where the advanced ip points, so the next fetch reads what was stored. -/
theorem storedWordIsTheNextInstruction : Obligations.StoredWordIsTheNextInstruction := by
  unfold Obligations.StoredWordIsTheNextInstruction
  intro op s t m1 m2 m3 a b r i hr hfetch h1 h2 htarget hlt hres hi h
  have hd : 0 ≤ (s.ip : Int) + 4 ∧ (s.ip : Int) + 4 < s.mem.length := by omega
  have hat : ((s.ip : Int) + 4).toNat = s.ip + 4 := by omega
  rw [step_of_fetch_ok hr hfetch, exec_aluInstr_of_store h1 h2 (resolveDst_of_targets htarget) hres hd, hat] at h
  obtain rfl := Host.Outcome.next.inj h
  refine ⟨hr, step_of_fetch_ok hr (fetch_ok_iff.2 ⟨r, ?_, hi⟩)⟩
  exact List.getElem?_set_self hlt

end Sys2Proof.Machine
end

section
/-! ### What an instruction leaves as it is (R16, R19, R23, R27, R115) -/

namespace Sys2Proof.Machine

/-- R19: the halted flag and the parameters stand. -/
def State.KeepsCore (s t : State) : Prop := t.params = s.params ∧ t.halted = s.halted

/-- R26: no answer taken, no request made, no wait begun. -/
def State.KeepsInput (s t : State) : Prop :=
  t.inputs = s.inputs ∧ t.requests = s.requests ∧ (t.waiting = true → s.waiting = true)

/-- R27: no event sent. -/
def State.KeepsOutput (s t : State) : Prop := t.events = s.events ∧ t.outLeft = s.outLeft

theorem State.raise_keepsInput (s : State) (f : Fault) : s.KeepsInput (s.raise f) := ⟨rfl, rfl, by simp⟩

theorem exec_aluInstr_keeps {op : AluOp} {m1 m2 m3 : Mode} {s t : State}
    (h : exec (op.instr m1 m2 m3) s = .next t) : s.KeepsCore t ∧ s.KeepsInput t ∧ s.KeepsOutput t := by
  rcases exec_aluInstr_next h with ⟨f, -, rfl⟩ | ⟨a, b, d, r, m, -, -, -, -, -, rfl⟩
  · exact ⟨⟨rfl, rfl⟩, s.raise_keepsInput f, rfl, rfl⟩
  · exact ⟨⟨rfl, rfl⟩, ⟨rfl, rfl, id⟩, rfl, rfl⟩

theorem receive_keepsCore (d : Int) (s : State) : s.KeepsCore (receive d s) := by
  rcases receive_cases d s with ⟨-, h⟩ | ⟨v, rest, m, -, -, h⟩ | ⟨a, rest, f, -, -, h⟩ <;>
    rw [h] <;> exact ⟨rfl, rfl⟩

theorem exec_inp_keepsCore {m1 m2 m3 : Mode} {s t : State} (h : exec (.inp m1 m2 m3) s = .next t) :
    s.KeepsCore t := by
  rcases execIn_next h with ⟨f, -, rfl⟩ | ⟨d, -, ⟨-, -, rfl⟩ | ⟨u, hu, rfl⟩⟩
  · exact ⟨rfl, rfl⟩
  · exact ⟨rfl, rfl⟩
  · rcases promptAndRequest_ok hu with ⟨-, rfl⟩ | ⟨-, -, rfl⟩ <;> exact receive_keepsCore d _

theorem exec_out_keeps {m1 m2 m3 : Mode} {s t : State} (h : exec (.out m1 m2 m3) s = .next t) :
    s.KeepsCore t ∧ s.KeepsInput t := by
  rcases execOut_next h with ⟨f, -, rfl⟩ | ⟨v, -, ⟨-, rfl⟩ | ⟨-, rfl⟩⟩
  · exact ⟨⟨rfl, rfl⟩, s.raise_keepsInput f⟩
  · exact ⟨⟨rfl, rfl⟩, (s.sent (.value v)).raise_keepsInput _⟩
  · exact ⟨⟨rfl, rfl⟩, rfl, rfl, id⟩

/-- Settles O19: instruction by instruction, from the frame of each. -/
theorem instructionsLeaveTheRestUnchanged : Obligations.InstructionsLeaveTheRestUnchanged := by
  unfold Obligations.InstructionsLeaveTheRestUnchanged
  intro i s t h
  cases i with
  | add m1 m2 m3 =>
    obtain ⟨⟨hp, hh⟩, hin, hout⟩ := exec_aluInstr_keeps (op := .add) h
    exact ⟨hp, fun _ => hh, fun _ => hin, fun _ _ => hout, by simp⟩
  | mul m1 m2 m3 =>
    obtain ⟨⟨hp, hh⟩, hin, hout⟩ := exec_aluInstr_keeps (op := .mul) h
    exact ⟨hp, fun _ => hh, fun _ => hin, fun _ _ => hout, by simp⟩
  | inp m1 m2 m3 =>
    obtain ⟨hp, hh⟩ := exec_inp_keepsCore h
    exact ⟨hp, fun _ => hh, fun hn => absurd rfl (hn m1 m2 m3), fun hn => absurd rfl (hn m1 m2 m3), by simp⟩
  | out m1 m2 m3 =>
    obtain ⟨⟨hp, hh⟩, hin⟩ := exec_out_keeps h
    exact ⟨hp, fun _ => hh, fun _ => hin, fun _ hn => absurd rfl (hn m1 m2 m3), by simp⟩
  | halt m1 m2 m3 =>
    obtain rfl := Host.Outcome.next.inj h
    exact ⟨rfl, fun hn => absurd rfl (hn m1 m2 m3), fun _ => ⟨rfl, rfl, id⟩, fun _ _ => ⟨rfl, rfl⟩, fun _ => rfl⟩

/-- Settles O26: of the steps of a running machine, only that of a HALT moves the flag. -/
theorem onlyHaltSetsTheHaltedFlag : Obligations.OnlyHaltSetsTheHaltedFlag := by
  unfold Obligations.OnlyHaltSetsTheHaltedFlag
  intro s t h hne
  rcases step_next h with ⟨-, rfl⟩ | ⟨-, f, -, rfl⟩ | ⟨hr, i, hi, hx⟩
  · exact absurd rfl hne
  · exact absurd rfl hne
  · obtain ⟨-, hhalted, -⟩ := instructionsLeaveTheRestUnchanged i s t hx
    cases i with
    | halt m1 m2 m3 =>
      obtain rfl := Host.Outcome.next.inj hx
      exact ⟨hr.1, rfl, m1, m2, m3, hi⟩
    | _ m1 m2 m3 => exact absurd (hhalted (by simp)) hne

/-- Settles O27: `step_total`, by whether the machine runs and what it fetches. -/
theorem everyStepAnswersANextState : Obligations.EveryStepAnswersANextState := by
  unfold Obligations.EveryStepAnswersANextState
  exact step_total

/-! #### Other answers on the channels -/

/-- R26, R27: the same machine with other answers to come on the input and on the output port. -/
def State.withChannels (answers : List InAnswer) (left : Option Nat) (s : State) : State :=
  { s with inputs := answers, outLeft := left }

section

variable (answers : List InAnswer) (left : Option Nat)

theorem memWrite_withChannels (s : State) (d r : Int) :
    memWrite (s.withChannels answers left) d r = (memWrite s d r).map (State.withChannels answers left) := by
  rw [memWrite, memWrite, show (s.withChannels answers left).mem = s.mem from rfl]
  cases Memory.write s.mem d r <;> rfl

/-- R75 to R78: what ADD and MUL read, compute and store does not look at the ports. -/
theorem binaryOp_withChannels (op : AluOp) (m1 m2 m3 : Mode) (s : State) :
    binaryOp (narrow op) m1 m2 m3 (s.withChannels answers left) =
      (binaryOp (narrow op) m1 m2 m3 s).map (State.withChannels answers left) := by
  have hread (k : Nat) (m : Mode) :
      readOperand (s.withChannels answers left) ((s.withChannels answers left).slot k) m =
        readOperand s (s.slot k) m := rfl
  have hdst (k : Nat) (m : Mode) :
      resolveDst (s.withChannels answers left) ((s.withChannels answers left).slot k) m =
        resolveDst s (s.slot k) m := rfl
  have halu (a b : Int) : narrow op (s.withChannels answers left) a b = narrow op s a b := rfl
  simp only [binaryOp, hread, hdst, halu, memWrite_withChannels]
  cases readOperand s (s.slot 1) m1 with
  | error f => rfl
  | ok a =>
    cases readOperand s (s.slot 2) m2 with
    | error f => rfl
    | ok b =>
      cases resolveDst s (s.slot 3) m3 with
      | error f => rfl
      | ok d =>
        cases hr : narrow op s a b with
        | error f => simp only [hr]; rfl
        | ok r => cases hw : memWrite s d r <;> simp only [hr, hw] <;> rfl

theorem exec_aluInstr_withChannels {op : AluOp} {m1 m2 m3 : Mode} {s t : State}
    (h : exec (op.instr m1 m2 m3) s = .next t) :
    exec (op.instr m1 m2 m3) (s.withChannels answers left) = .next (t.withChannels answers left) := by
  rw [exec_aluInstr] at h ⊢
  rw [binaryOp_withChannels]
  rcases complete_next h with hx | ⟨f, hx, rfl⟩ <;> rw [hx] <;> rfl

/-- R27: OUT asks the output port, and not the input port. -/
theorem exec_out_withInputs {m1 m2 m3 : Mode} {s t : State} (h : exec (.out m1 m2 m3) s = .next t) :
    exec (.out m1 m2 m3) { s with inputs := answers } = .next { t with inputs := answers } := by
  rcases execOut_next h with ⟨f, hf, rfl⟩ | ⟨v, hv, ⟨ho, rfl⟩ | ⟨ho, rfl⟩⟩
  · exact exec_out_of_source_fault hf
  · exact exec_out_of_port_failed hv ho
  · exact exec_out_of_outputOk hv ho

theorem exec_withChannels {i : Instr} {s t : State} (hin : ∀ m1 m2 m3, i ≠ .inp m1 m2 m3)
    (hout : ∀ m1 m2 m3, i ≠ .out m1 m2 m3) (h : exec i s = .next t) :
    exec i (s.withChannels answers left) = .next (t.withChannels answers left) := by
  cases i with
  | add m1 m2 m3 => exact exec_aluInstr_withChannels answers left (op := .add) h
  | mul m1 m2 m3 => exact exec_aluInstr_withChannels answers left (op := .mul) h
  | inp m1 m2 m3 => exact absurd rfl (hin m1 m2 m3)
  | out m1 m2 m3 => exact absurd rfl (hout m1 m2 m3)
  | halt m1 m2 m3 =>
    obtain rfl := Host.Outcome.next.inj h
    rfl

theorem exec_withInputs {i : Instr} {s t : State} (hin : ∀ m1 m2 m3, i ≠ .inp m1 m2 m3) (h : exec i s = .next t) :
    exec i { s with inputs := answers } = .next { t with inputs := answers } := by
  by_cases hout : ∃ m1 m2 m3, i = .out m1 m2 m3
  · obtain ⟨m1, m2, m3, rfl⟩ := hout
    exact exec_out_withInputs answers h
  · have hne : ∀ m1 m2 m3, i ≠ .out m1 m2 m3 := fun m1 m2 m3 hi => hout ⟨m1, m2, m3, hi⟩
    obtain ⟨-, -, -, houtput, -⟩ := instructionsLeaveTheRestUnchanged i s t h
    obtain ⟨-, hsame⟩ := houtput hin hne
    have hleft : t.withChannels answers s.outLeft = { t with inputs := answers } := by
      rw [State.withChannels, ← hsame]
    exact hleft ▸ exec_withChannels answers s.outLeft hin hne h

end

/-- Settles O32: neither the fetch nor the run status looks at the ports; the rest is the instruction's own. -/
theorem channelsReachOnlyInAndOut : Obligations.ChannelsReachOnlyInAndOut := by
  unfold Obligations.ChannelsReachOnlyInAndOut
  intro s t i answers left hi hin h
  by_cases hr : s.Running
  · rw [step_of_fetch_ok hr hi] at h
    refine ⟨?_, fun hout => ?_⟩
    · exact (step_of_fetch_ok (s := { s with inputs := answers }) hr hi).trans (exec_withInputs answers hin h)
    · exact (step_of_fetch_ok (s := s.withChannels answers left) hr hi).trans (exec_withChannels answers left hin hout h)
  · obtain rfl := eq_of_step_of_not_running hr h
    exact ⟨step_of_not_running hr, fun _ => step_of_not_running hr⟩

end Sys2Proof.Machine
end

section
/-! ### Where no step is enabled, and what a fault leaves (R66, R69, R92) -/

namespace Sys2Proof.Machine

/-- Settles O22: such a state is not running, so `step` and `runFor` answer it unchanged. -/
theorem haltedAndFaultedStatesNeverChange : Obligations.HaltedAndFaultedStatesNeverChange := by
  unfold Obligations.HaltedAndFaultedStatesNeverChange
  intro s h
  have hn : ¬s.Running := fun ⟨hh, hf⟩ => h.elim (by simp [hh]) (absurd hf)
  exact ⟨mt (status_running s).1 hn, step_of_not_running hn, runFor_of_not_running hn, runFor_of_not_running hn _⟩

/-- R92: what a step from `s` that takes the fault `f` leaves in `t`. -/
structure FaultFrame (s t : State) (f : Fault) : Prop where
  mem : t.mem = s.mem
  ip : t.ip = s.ip
  halted : t.halted = s.halted
  fault_ip : f.ip = s.ip
  events : t.events = s.events ∨ t.events = s.events ++ [.prompt] ∨
    ∃ v, t.events = s.events ++ [.value v] ∧ f = .ioError .output s.ip
  inputs : t.inputs = s.inputs ∨ ∃ a, s.inputs = a :: t.inputs

/-- R97, R98: only an answer just taken makes a fault after the request. -/
theorem receive_fault {d : Int} {u : State} {f : Fault} (hu : u.fault = none) (h : (receive d u).fault = some f) :
    ∃ a rest, u.inputs = a :: rest ∧ f.ip = u.ip ∧ receive d u = (u.takeInput rest).raise f := by
  rcases receive_cases d u with ⟨-, hrec⟩ | ⟨v, rest, m, -, -, hrec⟩ | ⟨a, rest, g, hin, ⟨hip, -⟩, hrec⟩ <;>
    rw [hrec] at h
  · simp [hu] at h
  · simp [hu] at h
  · obtain rfl : g = f := Option.some.inj h
    exact ⟨a, rest, hin, hip, hrec⟩

theorem receive_faultFrame {s u : State} {d : Int} {f : Fault} (hs : s.fault = none)
    (hu : promptAndRequest s = (.ok, u)) (h : (receive d u).fault = some f) : FaultFrame s (receive d u) f := by
  obtain ⟨-, -, hf, -⟩ := promptAndRequest_ok_frame hu
  obtain ⟨a, rest, hin, hip, hrec⟩ := receive_fault (hf.trans hs) h
  rw [hrec]
  rcases promptAndRequest_ok hu with ⟨-, rfl⟩ | ⟨-, -, rfl⟩
  · exact ⟨rfl, rfl, rfl, hip, .inl rfl, .inr ⟨a, hin⟩⟩
  · exact ⟨rfl, rfl, rfl, hip, .inr (.inl rfl), .inr ⟨a, hin⟩⟩

theorem step_faultFrame {s t : State} {f : Fault} (hr : s.Running) (h : step s = .next t) (hf : t.fault = some f) :
    FaultFrame s t f := by
  rcases step_cases hr h with ⟨g, ⟨hip, -⟩, rfl⟩ |
    ⟨op, m1, m2, m3, a, b, d, r, m, -, -, -, -, -, -, rfl⟩ |
    ⟨m1, m2, m3, d, u, -, -, hu, rfl⟩ | ⟨m1, m2, m3, v, -, -, -, rfl⟩ |
    ⟨m1, m2, m3, -, rfl⟩ | ⟨e, -, rfl, he⟩
  case inl =>
    obtain rfl : g = f := Option.some.inj hf
    exact ⟨rfl, rfl, rfl, hip, .inl rfl, .inl rfl⟩
  case inr.inr.inl => exact receive_faultFrame hr.2 hu hf
  case inr.inr.inr.inr.inr =>
    obtain rfl := Option.some.inj hf
    refine ⟨rfl, rfl, rfl, rfl, .inr ?_, .inl rfl⟩
    rcases he with ⟨-, -, -, -, rfl, -⟩ | ⟨-, -, -, v, rfl, -⟩
    · exact .inl rfl
    · exact .inr ⟨v, rfl, rfl⟩
  all_goals simp [hr.2] at hf

/-- Settles O24: `step_faultFrame`, and a faulted state enables no step. -/
theorem faultLeavesMemoryAndIpAsTheyAre : Obligations.FaultLeavesMemoryAndIpAsTheyAre := by
  unfold Obligations.FaultLeavesMemoryAndIpAsTheyAre
  intro s t f hr h hf
  obtain ⟨hmem, hip, hhalted, hfip, hevents, hinputs⟩ := step_faultFrame hr h hf
  exact ⟨hmem, hip, hhalted, hfip, hevents, hinputs, step_of_not_running fun ht => by simp [ht.2] at hf⟩

end Sys2Proof.Machine
end

section
/-! ### The events a step and a run send (R27, R28, R80, R81, R98) -/

namespace Sys2Proof.Machine

/-- R80, R81: the event is the one of the instruction fetched: IN's prompt, or the value OUT's operand reads as. -/
def State.Sends (s : State) : OutEvent → Prop
  | .prompt => ∃ m1 m2 m3, fetch s = .ok (.inp m1 m2 m3)
  | .value v => ∃ m1 m2 m3, fetch s = .ok (.out m1 m2 m3) ∧ Reads s (s.ip + 1) m1 v

/-- R80: how many requests follow the event once the port has taken it. -/
def OutEvent.requests : OutEvent → Nat
  | .prompt => 1
  | .value _ => 0

/-- R98: the run has recorded an `IoError` of the output channel. -/
def State.OutputFailed (s : State) : Prop := ∃ ip, s.fault = some (.ioError .output ip)

theorem not_outputFailed_of_fault_none {s : State} (h : s.fault = none) : ¬s.OutputFailed := by
  simp [State.OutputFailed, h]

theorem raise_not_outputFailed {s : State} {f : Fault} (h : f.ofOutput = false) : ¬(s.raise f).OutputFailed := by
  rintro ⟨ip, hip⟩
  obtain rfl := Option.some.inj hip
  cases h

/-- R27: the step sends no event, one that the port takes, or one that the port fails. -/
inductive PortStep (s t : State) : Prop
  | silent (events : t.events = s.events) (requests : t.requests = s.requests) (outLeft : t.outLeft = s.outLeft)
      (fault : ¬t.OutputFailed)
  | taken (e : OutEvent) (sends : s.Sends e) (events : t.events = s.events ++ [e])
      (requests : t.requests = s.requests + e.requests) (ok : s.OutputOk) (outLeft : t.outLeft = s.outLeft.map (· - 1))
      (fault : ¬t.OutputFailed)
  | failed (e : OutEvent) (sends : s.Sends e) (events : t.events = s.events ++ [e]) (requests : t.requests = s.requests)
      (port : s.outLeft = some 0) (outLeft : t.outLeft = some 0) (fault : t.fault = some (.ioError .output s.ip))

/-- R80: taking the answer sends nothing. -/
theorem receive_port {d : Int} {u : State} (hu : u.fault = none) :
    (receive d u).events = u.events ∧ (receive d u).requests = u.requests ∧ (receive d u).outLeft = u.outLeft ∧
      ¬(receive d u).OutputFailed := by
  rcases receive_cases d u with ⟨-, h⟩ | ⟨v, rest, m, -, -, h⟩ | ⟨a, rest, f, -, ⟨-, ho⟩, h⟩ <;> rw [h]
  · exact ⟨rfl, rfl, rfl, not_outputFailed_of_fault_none hu⟩
  · exact ⟨rfl, rfl, rfl, not_outputFailed_of_fault_none hu⟩
  · exact ⟨rfl, rfl, rfl, raise_not_outputFailed ho⟩

theorem step_portStep {s t : State} (hr : s.Running) (h : step s = .next t) : PortStep s t := by
  have hnone : ¬s.OutputFailed := not_outputFailed_of_fault_none hr.2
  rcases step_cases hr h with ⟨f, ⟨-, ho⟩, rfl⟩ |
    ⟨op, m1, m2, m3, a, b, d, r, m, -, -, -, -, -, -, rfl⟩ |
    ⟨m1, m2, m3, d, u, hi, -, hu, rfl⟩ | ⟨m1, m2, m3, v, hi, hv, ho, rfl⟩ |
    ⟨m1, m2, m3, -, rfl⟩ | ⟨e, ho, rfl, he⟩
  · exact .silent rfl rfl rfl (raise_not_outputFailed ho)
  · exact .silent rfl rfl rfl hnone
  · rcases promptAndRequest_ok hu with ⟨-, rfl⟩ | ⟨-, ho, rfl⟩
    · obtain ⟨hevents, hrequests, hleft, hfault⟩ := receive_port (d := d) hr.2
      exact .silent hevents hrequests hleft hfault
    · obtain ⟨hevents, hrequests, hleft, hfault⟩ := receive_port (d := d) (u := (s.sent .prompt).request) hr.2
      exact .taken .prompt ⟨m1, m2, m3, hi⟩ hevents hrequests ho hleft hfault
  · exact .taken (.value v) ⟨m1, m2, m3, hi, readOperand_ok_iff_reads.1 hv⟩ rfl rfl ho rfl hnone
  · exact .silent rfl rfl rfl hnone
  · refine .failed e ?_ rfl rfl ho (by simp [ho]) rfl
    rcases he with ⟨m1, m2, m3, d, rfl, -, hi, -⟩ | ⟨m1, m2, m3, v, rfl, hi, hv⟩
    · exact ⟨m1, m2, m3, hi⟩
    · exact ⟨m1, m2, m3, hi, readOperand_ok_iff_reads.1 hv⟩

/-- Settles O29: the three cases of `step_portStep`, by the event sent. -/
theorem eventsAreSentOneAtATime : Obligations.EventsAreSentOneAtATime := by
  unfold Obligations.EventsAreSentOneAtATime
  intro s t h
  by_cases hr : s.Running
  · cases step_portStep hr h with
    | silent hevents hrequests => exact .inl ⟨hevents, hrequests⟩
    | taken e hsends hevents hrequests =>
      cases e with
      | prompt => exact .inr (.inl ⟨hevents, hrequests, hsends⟩)
      | value v =>
        obtain ⟨m1, m2, m3, hi, hv⟩ := hsends
        exact .inr (.inr (.inr ⟨v, m1, m2, m3, hevents, hrequests, hi, hv⟩))
    | failed e hsends hevents hrequests ho _ hfault =>
      cases e with
      | prompt => exact .inr (.inr (.inl ⟨hevents, hrequests, ho, hfault, hsends⟩))
      | value v =>
        obtain ⟨m1, m2, m3, hi, hv⟩ := hsends
        exact .inr (.inr (.inr ⟨v, m1, m2, m3, hevents, hrequests, hi, hv⟩))
  · obtain rfl := eq_of_step_of_not_running hr h
    exact .inl ⟨rfl, rfl⟩

/-! #### Along a run -/

/-- R27: the port never fails, and has not failed. -/
def State.PortNeverFails (s : State) : Prop := s.outLeft = none ∧ ¬s.OutputFailed

/-- R27, R98: the port takes `total` events in all: the events sent and those it still takes make up `total`, or it has
failed the one after them. -/
def State.PortTakes (total : Nat) (s : State) : Prop :=
  ∃ j, s.outLeft = some j ∧
    (¬s.OutputFailed ∧ s.events.length + j = total ∨ s.OutputFailed ∧ j = 0 ∧ s.events.length = total + 1)

theorem step_keeps_portNeverFails {s t : State} (hs : s.PortNeverFails) (h : step s = .next t) : t.PortNeverFails := by
  obtain ⟨hleft, hnot⟩ := hs
  by_cases hr : s.Running
  · cases step_portStep hr h with
    | silent _ _ houtLeft hfault => exact ⟨houtLeft.trans hleft, hfault⟩
    | taken _ _ _ _ _ houtLeft hfault => exact ⟨by simp [houtLeft, hleft], hfault⟩
    | failed _ _ _ _ ho => simp [hleft] at ho
  · obtain rfl := eq_of_step_of_not_running hr h
    exact ⟨hleft, hnot⟩

theorem step_keeps_portTakes {total : Nat} {s t : State} (hs : s.PortTakes total) (h : step s = .next t) :
    t.PortTakes total := by
  by_cases hr : s.Running
  · obtain ⟨j, hleft, ⟨-, hsum⟩ | ⟨hfailed, -⟩⟩ := hs
    · cases step_portStep hr h with
      | silent hevents _ houtLeft hfault => exact ⟨j, houtLeft.trans hleft, .inl ⟨hfault, hevents ▸ hsum⟩⟩
      | taken e _ hevents _ ho houtLeft hfault =>
        have hj : j ≠ 0 := fun h0 => ho (h0 ▸ hleft)
        refine ⟨j - 1, by simp [houtLeft, hleft], .inl ⟨hfault, ?_⟩⟩
        rw [hevents, List.length_append, List.length_singleton]
        omega
      | failed e _ hevents _ ho houtLeft hfault =>
        obtain rfl : j = 0 := Option.some.inj (hleft.symm.trans ho)
        refine ⟨0, houtLeft, .inr ⟨⟨s.ip, hfault⟩, rfl, ?_⟩⟩
        rw [hevents, List.length_append, List.length_singleton, ← hsum, Nat.add_zero]
    · exact absurd hfailed (not_outputFailed_of_fault_none hr.2)
  · obtain rfl := eq_of_step_of_not_running hr h
    exact hs

/-- Settles O45: `PortNeverFails` and `PortTakes` hold at the start, where there is no fault, and every step keeps
them. -/
theorem outputPortTakesTheEventsItsAnswersAllow : Obligations.OutputPortTakesTheEventsItsAnswersAllow := by
  unfold Obligations.OutputPortTakesTheEventsItsAnswersAllow
  intro s n hs
  have hnone : ¬s.OutputFailed := not_outputFailed_of_fault_none hs
  refine ⟨fun hleft => ?_, fun k hleft => ?_⟩
  · obtain ⟨hstays, hnot⟩ := runFor_induction (P := State.PortNeverFails) (fun _ _ => step_keeps_portNeverFails) n s
      ⟨hleft, hnone⟩
    exact ⟨hstays, not_exists.1 hnot⟩
  · obtain ⟨j, hj, hcases⟩ := runFor_induction (P := State.PortTakes (s.events.length + k))
      (fun _ _ => step_keeps_portTakes) n s ⟨k, hleft, .inl ⟨hnone, rfl⟩⟩
    exact ⟨j, hj, hcases.imp_left (And.imp_left not_exists.1)⟩

end Sys2Proof.Machine
end

section
/-! ### When the host answers (R26, R29) -/

namespace Sys2Proof.Machine

/-- R29: a step that changes nothing completes no instruction and takes no fault. -/
theorem stuck_of_step_self {s : State} (hr : s.Running) (h : step s = .next s) : s.Stuck := by
  rcases step_outcome hr h with ⟨f, hf, -, -⟩ | ⟨hst, -, -⟩ | ⟨i, hc⟩
  · simp [hr.2] at hf
  · exact hst
  · have hip : ipAdvance i = 0 := by have := hc.ip; omega
    cases i with
    | halt m1 m2 m3 => exact absurd (hc.halted_of_halt ⟨m1, m2, m3, rfl⟩) (by simp [hr.1])
    | _ m1 m2 m3 => simp [ipAdvance] at hip

theorem receive_takes_answer {d : Int} {s : State} {a : InAnswer} {rest : List InAnswer} (h : s.inputs = a :: rest) :
    (receive d s).waiting = false ∧ (receive d s).inputs = rest := by
  rcases receive_cases d s with ⟨hin, -⟩ | ⟨v, rest', m, hin, -, hrec⟩ | ⟨a', rest', f, hin, -, hrec⟩
  · simp [hin] at h
  all_goals
    obtain ⟨-, rfl⟩ := List.cons.inj (hin.symm.trans h)
    rw [hrec]
    exact ⟨rfl, rfl⟩

/-- R29: an IN in flight goes on with whatever answers have come. -/
theorem step_of_waiting {s : State} {m1 m2 m3 : Mode} {d : Int} (hr : s.Running) (hw : s.waiting = true)
    (hi : fetch s = .ok (.inp m1 m2 m3)) (hd : resolveDst s (s.ip + 1) m1 = .ok d) : step s = .next (receive d s) := by
  rw [step_of_fetch_ok hr hi, exec_inp_of_prompted m2 m3 hd (promptAndRequest_of_waiting hw)]

/-- Settles O30: `step_of_stuck` and its converse, and the IN in flight taking the first answer. -/
theorem onlyTheInputWaitHoldsTheMachine : Obligations.OnlyTheInputWaitHoldsTheMachine := by
  unfold Obligations.OnlyTheInputWaitHoldsTheMachine
  intro s hs hr
  refine ⟨⟨stuck_of_step_self hr, step_of_stuck hs.waitsOnlyAtIn⟩, ?_⟩
  rintro ⟨-, hw, hin⟩ a rest t h
  obtain ⟨m1, m2, m3, d, hi, hd⟩ := hs.waitsOnlyAtIn hw
  rw [step_of_waiting (s := s.hostAnswers (a :: rest)) hr hw hi hd] at h
  obtain rfl := Host.Outcome.next.inj h
  have hanswers : (s.hostAnswers (a :: rest)).inputs = a :: rest := by simp [hin]
  exact receive_takes_answer hanswers

theorem State.hostAnswers_nil (s : State) : s.hostAnswers [] = s := by simp [State.hostAnswers]

/-- R92: a step that takes its fault whatever the host has answered, which it does not look at. -/
theorem step_hostAnswers_of_raise {s u : State} {f : Fault}
    (h : ∀ answers, step (s.hostAnswers answers) = .next ((u.hostAnswers answers).raise f)) (answers : List InAnswer) :
    step s = .next (u.raise f) ∧ step (u.raise f) = .next (u.raise f) ∧
      step ((u.raise f).hostAnswers answers) = step (s.hostAnswers answers) := by
  have hend (v : State) : step (v.raise f) = .next (v.raise f) := step_of_not_running (by simp)
  have hnow := h []
  rw [State.hostAnswers_nil, State.hostAnswers_nil] at hnow
  exact ⟨hnow, hend u, by rw [raise_hostAnswers, hend, h]⟩

/-- R29: a step that is left in the wait, from which the answers do what they would have done at once. -/
theorem step_hostAnswers_of_wait {s u : State} {d : Int} (hin : u.inputs = [])
    (hbegins : ∀ answers, step (s.hostAnswers answers) = .next (receive d (u.hostAnswers answers)))
    (hwaits : ∀ answers, step (u.hostAnswers answers) = .next (receive d (u.hostAnswers answers)))
    (answers : List InAnswer) :
    step s = .next u ∧ step u = .next u ∧ step (u.hostAnswers answers) = step (s.hostAnswers answers) := by
  have hbegin := hbegins []
  have hwait := hwaits []
  simp only [State.hostAnswers_nil, receive_nil hin] at hbegin hwait
  exact ⟨hbegin, hwait, by rw [hwaits, hbegins]⟩

/-- Settles O31, by what becomes of the IN before it looks at the answers: its destination faults, the output port fails
its prompt, or it begins the wait, in which an IN that is answered at once has been too. -/
theorem answerTimeDoesNotMatter : Obligations.AnswerTimeDoesNotMatter := by
  unfold Obligations.AnswerTimeDoesNotMatter
  intro s m1 m2 m3 a rest hr hw hin hi
  have hexec (answers : List InAnswer) : step (s.hostAnswers answers) = exec (.inp m1 m2 m3) (s.hostAnswers answers) :=
    step_of_fetch_ok hr hi
  cases hd : resolveDst s (s.ip + 1) m1 with
  | error f =>
    exact ⟨s.raise f, step_hostAnswers_of_raise
      (fun answers => (hexec answers).trans (exec_inp_of_destination_fault m2 m3 hd)) _⟩
  | ok d =>
    by_cases ho : s.outLeft = some 0
    · exact ⟨(s.sent .prompt).raise (.ioError .output s.ip), step_hostAnswers_of_raise (fun answers =>
        (hexec answers).trans (exec_inp_of_port_failed (s := s.hostAnswers answers) m2 m3 hd hw ho)) _⟩
    · have hu : ((s.sent .prompt).request).inputs = [] := hin
      refine ⟨_, step_hostAnswers_of_wait (d := d) hu (fun answers => ?_) (fun answers => ?_) _⟩
      · exact (hexec answers).trans (exec_inp_of_prompted m2 m3 hd (promptAndRequest_of_sent hw ho))
      · exact step_of_waiting hr rfl hi hd

end Sys2Proof.Machine
end

section
/-! ### The channel text (R82 to R87) -/

namespace Sys2Proof.Machine

/-- Settles O41: an event's text is its own characters, and the texts of a sequence are appended in order. -/
theorem eventsRenderInOrder : Obligations.EventsRenderInOrder := by
  unfold Obligations.EventsRenderInOrder
  refine ⟨rfl, fun es => rfl, fun v es => ?_, fun es fs => List.flatMap_append⟩
  simp [renderEvents, renderEvent]

/-! #### Digits -/

theorem mem_digitChars_iff {c : Char} : c ∈ digitChars ↔ 48 ≤ c.toNat ∧ c.toNat ≤ 57 := by
  constructor
  · have hall : ∀ x ∈ digitChars, 48 ≤ x.toNat ∧ x.toNat ≤ 57 := by simp [digitChars]
    exact hall c
  · rintro ⟨hlo, hhi⟩
    have hc : c = digitChar (c.toNat - 48) := by rw [digitChar, Nat.add_sub_cancel' hlo, Char.ofNat_toNat]
    rw [hc]
    exact digitChar_mem_digitChars (by omega)

theorem digitValue_eq_some_iff {c : Char} {d : Nat} : digitValue c = some d ↔ c ∈ digitChars ∧ d = c.toNat - 48 := by
  rw [mem_digitChars_iff, digitValue]
  split <;> simp_all [eq_comm]

theorem digitValue_eq_none_iff {c : Char} : digitValue c = none ↔ c ∉ digitChars := by
  rw [mem_digitChars_iff, digitValue]
  split <;> simp_all

/-- The value of a digit character read after digits of value `n`. -/
def addDigit (n : Nat) (c : Char) : Nat := n * 10 + (c.toNat - 48)

theorem readDigits_eq_some_iff {acc n : Nat} {t : Text} :
    readDigits acc t = some n ↔ (∀ c ∈ t, c ∈ digitChars) ∧ n = t.foldl addDigit acc := by
  induction t generalizing acc with
  | nil => simp [readDigits, eq_comm]
  | cons c cs ih =>
    by_cases hc : c ∈ digitChars
    · simp only [readDigits, digitValue_eq_some_iff.2 ⟨hc, rfl⟩, ih, List.forall_mem_cons, hc, true_and,
        List.foldl_cons, addDigit]
    · simp [readDigits, digitValue_eq_none_iff.2 hc, hc]

/-- R83: one or more digits. -/
theorem readNat_eq_some_iff {t : Text} {n : Nat} :
    readNat t = some n ↔ t ≠ [] ∧ (∀ c ∈ t, c ∈ digitChars) ∧ n = t.foldl addDigit 0 := by
  cases t with
  | nil => simp [readNat]
  | cons c cs => simp only [readNat, readDigits_eq_some_iff, ne_eq, reduceCtorEq, not_false_eq_true, true_and]

/-- R86: the digits written read as the number. -/
theorem foldl_natDigits {fuel n : Nat} (hfuel : n < fuel) : (natDigits fuel n).foldl addDigit 0 = n := by
  have hdigit : ∀ d < 10, (digitChar d).toNat - 48 = d := by decide
  induction fuel generalizing n with
  | zero => omega
  | succ fuel ih =>
    rcases Nat.lt_or_ge n 10 with h | h
    · rw [natDigits_of_lt_ten fuel h, List.foldl_cons, List.foldl_nil, addDigit, hdigit n h]
      omega
    · rw [natDigits_of_ten_le fuel h, List.foldl_append, ih (n := n / 10) (by omega), List.foldl_cons, List.foldl_nil,
        addDigit, hdigit (n % 10) (by omega)]
      omega

/-! #### Lines -/

/-- R83: `t` is an optional sign and one or more digits, of value `v`. -/
def SignedDecimal (t : Text) (v : Int) : Prop :=
  ∃ sign digits : Text, t = sign ++ digits ∧ digits ≠ [] ∧ (∀ c ∈ digits, c ∈ digitChars) ∧
    ((sign = [] ∨ sign = ['+']) ∧ v = (digits.foldl addDigit 0 : Nat) ∨
      sign = ['-'] ∧ v = -((digits.foldl addDigit 0 : Nat) : Int))

theorem readInt_plus (ds : Text) : readInt ('+' :: ds) = (readNat ds).map fun n : Nat => (n : Int) := rfl

theorem readInt_minus (ds : Text) : readInt ('-' :: ds) = (readNat ds).map fun n : Nat => -(n : Int) := rfl

theorem readInt_unsigned {t : Text} (hplus : ∀ ds, t ≠ '+' :: ds) (hminus : ∀ ds, t ≠ '-' :: ds) :
    readInt t = (readNat t).map fun n : Nat => (n : Int) := by
  unfold readInt
  split
  · exact absurd rfl (hplus _)
  · exact absurd rfl (hminus _)
  · rfl

theorem ne_cons_of_digits {t : Text} {c : Char} (ht : ∀ x ∈ t, x ∈ digitChars) (hc : c ∉ digitChars) (ds : Text) :
    t ≠ c :: ds :=
  fun h => hc (ht c (h ▸ List.mem_cons_self))

theorem signedDecimal_of_readInt {t : Text} {v : Int} (h : readInt t = some v) : SignedDecimal t v := by
  unfold readInt at h
  split at h
  all_goals
    rename_i ds
    obtain ⟨n, hn, rfl⟩ := Option.map_eq_some_iff.1 h
    obtain ⟨hne, hall, rfl⟩ := readNat_eq_some_iff.1 hn
  · exact ⟨['+'], ds, rfl, hne, hall, .inl ⟨.inr rfl, rfl⟩⟩
  · exact ⟨['-'], ds, rfl, hne, hall, .inr ⟨rfl, rfl⟩⟩
  · exact ⟨[], _, rfl, hne, hall, .inl ⟨.inl rfl, rfl⟩⟩

theorem readInt_of_signedDecimal {t : Text} {v : Int} (h : SignedDecimal t v) : readInt t = some v := by
  obtain ⟨sign, digits, rfl, hne, hall, hsign⟩ := h
  have hn : readNat digits = some (digits.foldl addDigit 0) := readNat_eq_some_iff.2 ⟨hne, hall, rfl⟩
  rcases hsign with ⟨rfl | rfl, rfl⟩ | ⟨rfl, rfl⟩
  · rw [List.nil_append, readInt_unsigned (ne_cons_of_digits hall (by decide)) (ne_cons_of_digits hall (by decide)), hn]
    rfl
  · rw [List.singleton_append, readInt_plus, hn]
    rfl
  · rw [List.singleton_append, readInt_minus, hn]
    rfl

/-- R83: the answers of a line, by the text left when it is trimmed. -/
theorem answerLine_eq_value_iff {W : Nat} {line : Text} {v : Int} :
    answerLine W line = .value v ↔ Word.InRange W v ∧ SignedDecimal (trim line) v := by
  have hread : SignedDecimal (trim line) v ↔ readInt (trim line) = some v :=
    ⟨readInt_of_signedDecimal, signedDecimal_of_readInt⟩
  rw [hread, answerLine]
  cases readInt (trim line) with
  | none => simp
  | some u =>
    by_cases hu : Word.InRange W u
    · simp only [if_pos hu, InAnswer.value.injEq, Option.some.injEq]
      exact ⟨fun h => ⟨h ▸ hu, h⟩, And.right⟩
    · simp only [if_neg hu, reduceCtorEq, Option.some.injEq, false_iff]
      exact fun ⟨hv, h⟩ => hu (h ▸ hv)

theorem answerLine_cases (W : Nat) (line : Text) :
    (∃ v, answerLine W line = .value v) ∨ answerLine W line = .formatError line := by
  unfold answerLine
  split
  · split
    · exact .inl ⟨_, rfl⟩
    · exact .inr rfl
  · exact .inr rfl

/-- Settles O43: a line by what `readInt` reads, a stream by the place of the line in it. -/
theorem acceptedLinesAreSignedDecimals : Obligations.AcceptedLinesAreSignedDecimals := by
  unfold Obligations.AcceptedLinesAreSignedDecimals
  refine ⟨fun W line v => answerLine_eq_value_iff, fun W line hn => ?_, fun W lines => ⟨?_, fun k line hk => ?_, ?_⟩⟩
  · exact (answerLine_cases W line).resolve_left fun ⟨v, hv⟩ => hn v hv
  · simp [streamAnswers]
  · obtain ⟨hlt, -⟩ := List.getElem?_eq_some_iff.1 hk
    rw [streamAnswers, List.getElem?_append_left (by simpa using hlt), List.getElem?_map, hk]
    rfl
  · simp [streamAnswers]

/-! #### White space -/

theorem dropWhile_isTrimmed_eq_self {t : Text} (ht : ∀ c ∈ t, isTrimmed c = false) : t.dropWhile isTrimmed = t :=
  List.dropWhile_eq_self_iff.2 fun hpos => by simp [ht _ (List.getElem_mem hpos)]

/-- R82: the white space around a text is trimmed, and no more, when the text itself has none. -/
theorem trim_surrounded {pre t post : Text} (hpre : ∀ c ∈ pre, isTrimmed c = true)
    (hpost : ∀ c ∈ post, isTrimmed c = true) (ht : ∀ c ∈ t, isTrimmed c = false) : trim (pre ++ t ++ post) = t := by
  have hpost' : ∀ c ∈ post.reverse, isTrimmed c = true := fun c hc => hpost c (List.mem_reverse.1 hc)
  have ht' : ∀ c ∈ t.reverse, isTrimmed c = false := fun c hc => ht c (List.mem_reverse.1 hc)
  rw [trim, List.append_assoc, List.dropWhile_append_of_pos hpre]
  cases t with
  | nil => simp [List.dropWhile_eq_nil_iff.2 hpost]
  | cons c cs =>
    have hc : isTrimmed c = false := ht c List.mem_cons_self
    rw [List.cons_append, List.dropWhile_cons_of_neg (by simp [hc]), ← List.cons_append, List.reverse_append,
      List.dropWhile_append_of_pos hpost', dropWhile_isTrimmed_eq_self ht', List.reverse_reverse]

/-- R86: the sign of `decimal` is the one R83 allows, and its digits are those of the magnitude. -/
theorem decimal_eq (v : Int) :
    decimal v = (if v < 0 then ['-'] else []) ++ natDigits (v.natAbs + 1) v.natAbs := by
  unfold decimal
  split <;> rfl

theorem natDigits_ne_nil (fuel n : Nat) : natDigits (fuel + 1) n ≠ [] := by
  rcases Nat.lt_or_ge n 10 with h | h
  · simp [natDigits_of_lt_ten fuel h]
  · simp [natDigits_of_ten_le fuel h]

theorem decimal_signedDecimal (v : Int) : SignedDecimal (decimal v) v := by
  refine ⟨_, _, decimal_eq v, natDigits_ne_nil _ _, fun c => mem_digitChars_of_mem_natDigits, ?_⟩
  rw [foldl_natDigits (Nat.lt_succ_self _)]
  by_cases hv : v < 0
  · exact .inr ⟨if_pos hv, by omega⟩
  · exact .inl ⟨.inl (if_neg hv), by omega⟩

theorem isTrimmed_of_mem_decimal {v : Int} {c : Char} (hc : c ∈ decimal v) : isTrimmed c = false := by
  have hall : ∀ x ∈ '-' :: digitChars, isTrimmed x = false := by simp [digitChars, isTrimmed]
  refine hall c ?_
  rw [decimal_eq, List.mem_append] at hc
  rcases hc with hc | hc
  · split at hc
    · exact List.mem_singleton.1 hc ▸ List.mem_cons_self
    · cases hc
  · exact List.mem_cons_of_mem _ (mem_digitChars_of_mem_natDigits hc)

/-- Settles O42: trimmed, the line is the word's decimal text, which is a signed decimal of that value. -/
theorem decimalTextReadsBack : Obligations.DecimalTextReadsBack := by
  unfold Obligations.DecimalTextReadsBack
  intro W v pre post hv hpre hpost
  rw [answerLine_eq_value_iff, trim_surrounded hpre hpost fun _ => isTrimmed_of_mem_decimal]
  exact ⟨hv, decimal_signedDecimal v⟩

end Sys2Proof.Machine
end
